-- ==== Sys2Proof/Word.lean ====
section
/-! DEFINITION. Word.lean: the widths of the block's values (00_scope.md R6, R8): 8-bit bytes and registers,
16-bit words (I, pc, stack entries, instruction words), register indices 0 to 15. -/

namespace Sys2Proof

/-- A memory byte or a general register (R21, R50). -/
abbrev Byte := BitVec 8

/-- A 16-bit value: I (R24), pc (R25), a stack entry (R27), an instruction word (R70). -/
abbrev Word := BitVec 16

/-- A register index, the x or y field: every value 0 to 15 names a register (R74). -/
abbrev Reg := Fin 16

/-- The four field bits that name register `x` (R72). -/
abbrev Reg.bits (x : Reg) : BitVec 4 := BitVec.ofFin x

/-- The flag register VF, index 15 (R22). -/
abbrev VF : Reg := 15

end Sys2Proof
end

