-- ==== Sys2Proof/Config.lean ====
section
/-! DEFINITION. Config.lean: the OPEN parameters of the block (00_scope.md R6) as constants WITHOUT A BODY, so that no
proof can see a value of one. The other parameters of R6 have values the source fixes (4096 bytes, 16 registers,
16 stack entries, 64 by 32 pixels, 16 keys, glyphs at 0x000, programs at 0x200, at most 0xE00 bytes) and stand as
numerals where a rule uses them. STEP_RATE and TIMER_RATE are timing only, read by no rule (R6, R281). -/

namespace Sys2Proof.Config

/-- GLYPH_DATA: the 80 bytes of the glyph table (R52, D22, 91_not_in_source.md N4). OPEN: free, log 2. -/
opaque glyphData : Fin 80 → Byte

/-- RNG: the byte that the n-th draw of the run gives to CXNN (R173, D10). OPEN: free, log 3. -/
opaque randomByte : Nat → Byte

/-- WAIT_KEY_CHOICE: the number that picks one of the keys that are down when the n-th draw of the run is FX0A's
(R213, D9). OPEN: free, log 4. -/
opaque waitKeyPick : Nat → Nat

end Sys2Proof.Config
end

