-- ==== Sys2Proof/Syntax.lean ====
section
/-! DEFINITION. Syntax.lean: the 34 instructions of the opcode map (30_encoding.md R81), one constructor per row, with
the row's fields (R72). A register field is an index 0 to 15, `nn` a byte, `nnn` twelve bits, `n` four bits: the
types are exactly as wide as the fields, so no term stands for a word that cannot be written. -/

namespace Sys2Proof

/-- The instruction set (R81). -/
inductive Instr where
  /-- 00E0 `CLS` (R120) -/
  | cls
  /-- 00EE `RET` (R140) -/
  | ret
  /-- 1NNN `JP nnn` (R141) -/
  | jpNnn (nnn : BitVec 12)
  /-- 2NNN `CALL nnn` (R142) -/
  | callNnn (nnn : BitVec 12)
  /-- 3XNN `SE Vx, nn` (R143) -/
  | seVxNn (x : Reg) (nn : Byte)
  /-- 4XNN `SNE Vx, nn` (R144) -/
  | sneVxNn (x : Reg) (nn : Byte)
  /-- 5XY0 `SE Vx, Vy` (R145) -/
  | seVxVy (x y : Reg)
  /-- 6XNN `LD Vx, nn` (R160) -/
  | ldVxNn (x : Reg) (nn : Byte)
  /-- 7XNN `ADD Vx, nn` (R161) -/
  | addVxNn (x : Reg) (nn : Byte)
  /-- 8XY0 `LD Vx, Vy` (R162) -/
  | ldVxVy (x y : Reg)
  /-- 8XY1 `OR Vx, Vy` (R163) -/
  | orVxVy (x y : Reg)
  /-- 8XY2 `AND Vx, Vy` (R164) -/
  | andVxVy (x y : Reg)
  /-- 8XY3 `XOR Vx, Vy` (R165) -/
  | xorVxVy (x y : Reg)
  /-- 8XY4 `ADD Vx, Vy` (R168) -/
  | addVxVy (x y : Reg)
  /-- 8XY5 `SUB Vx, Vy` (R169) -/
  | subVxVy (x y : Reg)
  /-- 8XY6 `SHR Vx` (R170); `y` is the encoded field that the instruction ignores (R81) -/
  | shrVx (x y : Reg)
  /-- 8XY7 `SUBN Vx, Vy` (R171) -/
  | subnVxVy (x y : Reg)
  /-- 8XYE `SHL Vx` (R172); `y` is the encoded field that the instruction ignores (R81) -/
  | shlVx (x y : Reg)
  /-- 9XY0 `SNE Vx, Vy` (R146) -/
  | sneVxVy (x y : Reg)
  /-- ANNN `LD I, nnn` (R190) -/
  | ldINnn (nnn : BitVec 12)
  /-- BNNN `JP V0, nnn` (R147) -/
  | jpV0Nnn (nnn : BitVec 12)
  /-- CXNN `RND Vx, nn` (R173) -/
  | rndVxNn (x : Reg) (nn : Byte)
  /-- DXYN `DRW Vx, Vy, n` (R122) -/
  | drwVxVyN (x y : Reg) (n : BitVec 4)
  /-- EX9E `SKP Vx` (R210) -/
  | skpVx (x : Reg)
  /-- EXA1 `SKNP Vx` (R211) -/
  | sknpVx (x : Reg)
  /-- FX07 `LD Vx, DT` (R212) -/
  | ldVxDt (x : Reg)
  /-- FX0A `LD Vx, K` (R213) -/
  | ldVxK (x : Reg)
  /-- FX15 `LD DT, Vx` (R214) -/
  | ldDtVx (x : Reg)
  /-- FX18 `LD ST, Vx` (R215) -/
  | ldStVx (x : Reg)
  /-- FX1E `ADD I, Vx` (R191) -/
  | addIVx (x : Reg)
  /-- FX29 `LD F, Vx` (R192) -/
  | ldFVx (x : Reg)
  /-- FX33 `LD B, Vx` (R195) -/
  | ldBVx (x : Reg)
  /-- FX55 `LD [I], Vx` (R196) -/
  | ldMemVx (x : Reg)
  /-- FX65 `LD Vx, [I]` (R197) -/
  | ldVxMem (x : Reg)
deriving DecidableEq, Repr

end Sys2Proof
end

