-- ==== Sys2Proof/WellFormed.lean ====
section
/-! DEFINITION. WellFormed.lean: which instruction words are legal, written from the list of illegal words in
30_encoding.md R78 and not from the decoder. The fields of `Instr` are exactly as wide as the encoding's (R72), so
every term of `Instr` is well formed and the checks stand on words: one check per set of R78. -/

namespace Sys2Proof

/-- Family 0x0 has the two words 00E0 and 00EE only (R76, R78). -/
def Word.legalFamily0 (w : Word) : Bool :=
  w.extractLsb' 12 4 != 0x0#4 || w == 0x00E0#16 || w == 0x00EE#16

/-- Families 0x5 and 0x9 need a low nibble of 0 (R77, R78). -/
def Word.legalRegisterSkip (w : Word) : Bool :=
  !(w.extractLsb' 12 4 == 0x5#4 || w.extractLsb' 12 4 == 0x9#4) || w.extractLsb' 0 4 == 0x0#4

/-- Family 0x8 has no operation with low nibble 8, 9, A, B, C, D or F (R78). -/
def Word.legalArithmetic (w : Word) : Bool :=
  w.extractLsb' 12 4 != 0x8#4 ||
    !([0x8#4, 0x9#4, 0xA#4, 0xB#4, 0xC#4, 0xD#4, 0xF#4].contains (w.extractLsb' 0 4))

/-- Family 0xE has the low bytes 9E and A1 only (R78). -/
def Word.legalKeySkip (w : Word) : Bool :=
  w.extractLsb' 12 4 != 0xE#4 || [0x9E#8, 0xA1#8].contains (w.extractLsb' 0 8)

/-- Family 0xF has the nine low bytes of R76 only (R78). -/
def Word.legalMulti (w : Word) : Bool :=
  w.extractLsb' 12 4 != 0xF#4 ||
    [0x07#8, 0x0A#8, 0x15#8, 0x18#8, 0x1E#8, 0x29#8, 0x33#8, 0x55#8, 0x65#8].contains (w.extractLsb' 0 8)

/-- A word is legal when it is in none of the sets of R78. -/
def Word.legal (w : Word) : Bool :=
  Word.legalFamily0 w && Word.legalRegisterSkip w && Word.legalArithmetic w && Word.legalKeySkip w &&
    Word.legalMulti w

end Sys2Proof
end

