-- ==== Sys2Proof/Decode.lean ====
section
/-! DEFINITION. Decode.lean: the decoder, total on every word and every list of bytes, rejecting by name
(30_encoding.md R70 to R80), then the encoder, written from the patterns of R81, the opcode map of R81 as a list of
rows, and `decodeTableWord`. The opcode numbers are the spec's, taken by it from general knowledge (G1, log 14). -/

namespace Sys2Proof

/-- Why bytes are no instruction: one name per set of R78, and fewer than two bytes (R70). -/
inductive DecodeReject where
  /-- fewer than the two bytes an instruction takes (R70) -/
  | truncated
  /-- family 0x0 other than 00E0 and 00EE, the 0NNN space among it (R78) -/
  | family0
  /-- 5XYN with n not 0 (R77) -/
  | family5
  /-- 8XYN with n in 8, 9, A to D, F (R78) -/
  | family8
  /-- 9XYN with n not 0 (R77) -/
  | family9
  /-- EXKK with KK not 9E, A1 (R78) -/
  | familyE
  /-- FXKK with KK none of the nine selectors (R78) -/
  | familyF
deriving DecidableEq, Repr

/-- The family selector `op = w[15:12]` (R72). -/
def opField (w : Word) : BitVec 4 := w.extractLsb' 12 4
/-- The x field `w[11:8]` as a register index (R72). -/
def xField (w : Word) : Reg := (w.extractLsb' 8 4).toFin
/-- The y field `w[7:4]` as a register index (R72). -/
def yField (w : Word) : Reg := (w.extractLsb' 4 4).toFin
/-- The n field, and the low nibble selector, `w[3:0]` (R73, R76). -/
def nField (w : Word) : BitVec 4 := w.extractLsb' 0 4
/-- The nn field, and the low byte selector, `w[7:0]` (R72, R76). -/
def nnField (w : Word) : Byte := w.extractLsb' 0 8
/-- The nnn field `w[11:0]` (R72). -/
def nnnField (w : Word) : BitVec 12 := w.extractLsb' 0 12

/-- Second-level decode of family 0x0, on the whole word (R76). -/
def decodeFamily0 (w : Word) : Except DecodeReject Instr :=
  if w = 0x00E0#16 then .ok .cls else if w = 0x00EE#16 then .ok .ret else .error .family0

/-- Second-level decode of family 0x8, on the low nibble (R76). -/
def decodeFamily8 (w : Word) : Except DecodeReject Instr :=
  match nField w with
  | 0x0#4 => .ok (.ldVxVy (xField w) (yField w))
  | 0x1#4 => .ok (.orVxVy (xField w) (yField w))
  | 0x2#4 => .ok (.andVxVy (xField w) (yField w))
  | 0x3#4 => .ok (.xorVxVy (xField w) (yField w))
  | 0x4#4 => .ok (.addVxVy (xField w) (yField w))
  | 0x5#4 => .ok (.subVxVy (xField w) (yField w))
  | 0x6#4 => .ok (.shrVx (xField w) (yField w))
  | 0x7#4 => .ok (.subnVxVy (xField w) (yField w))
  | 0xE#4 => .ok (.shlVx (xField w) (yField w))
  | _ => .error .family8

/-- Second-level decode of family 0xE, on the low byte (R76). -/
def decodeFamilyE (w : Word) : Except DecodeReject Instr :=
  match nnField w with
  | 0x9E#8 => .ok (.skpVx (xField w))
  | 0xA1#8 => .ok (.sknpVx (xField w))
  | _ => .error .familyE

/-- Second-level decode of family 0xF, on the low byte (R76). -/
def decodeFamilyF (w : Word) : Except DecodeReject Instr :=
  match nnField w with
  | 0x07#8 => .ok (.ldVxDt (xField w))
  | 0x0A#8 => .ok (.ldVxK (xField w))
  | 0x15#8 => .ok (.ldDtVx (xField w))
  | 0x18#8 => .ok (.ldStVx (xField w))
  | 0x1E#8 => .ok (.addIVx (xField w))
  | 0x29#8 => .ok (.ldFVx (xField w))
  | 0x33#8 => .ok (.ldBVx (xField w))
  | 0x55#8 => .ok (.ldMemVx (xField w))
  | 0x65#8 => .ok (.ldVxMem (xField w))
  | _ => .error .familyF

/-- The decoder (R75, R76, R80): the top nibble selects the family. -/
def decode (w : Word) : Except DecodeReject Instr :=
  match opField w with
  | 0x0#4 => decodeFamily0 w
  | 0x1#4 => .ok (.jpNnn (nnnField w))
  | 0x2#4 => .ok (.callNnn (nnnField w))
  | 0x3#4 => .ok (.seVxNn (xField w) (nnField w))
  | 0x4#4 => .ok (.sneVxNn (xField w) (nnField w))
  | 0x5#4 => if nField w = 0x0#4 then .ok (.seVxVy (xField w) (yField w)) else .error .family5
  | 0x6#4 => .ok (.ldVxNn (xField w) (nnField w))
  | 0x7#4 => .ok (.addVxNn (xField w) (nnField w))
  | 0x8#4 => decodeFamily8 w
  | 0x9#4 => if nField w = 0x0#4 then .ok (.sneVxVy (xField w) (yField w)) else .error .family9
  | 0xA#4 => .ok (.ldINnn (nnnField w))
  | 0xB#4 => .ok (.jpV0Nnn (nnnField w))
  | 0xC#4 => .ok (.rndVxNn (xField w) (nnField w))
  | 0xD#4 => .ok (.drwVxVyN (xField w) (yField w) (nField w))
  | 0xE#4 => decodeFamilyE w
  | _ => decodeFamilyF w

/-- The word of two bytes, high byte first (R56). -/
def wordOfBytes (hi lo : Byte) : Word := hi ++ lo

/-- The high byte `w[15:8]`, stored first (R56). -/
def highByte (w : Word) : Byte := w.extractLsb' 8 8
/-- The low byte `w[7:0]`, stored second (R56). -/
def lowByte (w : Word) : Byte := w.extractLsb' 0 8

/-- The decoder on bytes: it takes two and gives back the rest (R70). -/
def decodeBytes : List Byte → Except DecodeReject (Instr × List Byte)
  | hi :: lo :: rest => (decode (wordOfBytes hi lo)).map (·, rest)
  | _ => .error .truncated

/-- The encoder: the word of each instruction, from the patterns of R81. -/
def encode (i : Instr) : Word :=
  match i with
  | .cls => 0x00E0#16
  | .ret => 0x00EE#16
  | .jpNnn nnn => 0x1#4 ++ nnn
  | .callNnn nnn => 0x2#4 ++ nnn
  | .seVxNn x nn => 0x3#4 ++ x.bits ++ nn
  | .sneVxNn x nn => 0x4#4 ++ x.bits ++ nn
  | .seVxVy x y => 0x5#4 ++ x.bits ++ y.bits ++ 0x0#4
  | .ldVxNn x nn => 0x6#4 ++ x.bits ++ nn
  | .addVxNn x nn => 0x7#4 ++ x.bits ++ nn
  | .ldVxVy x y => 0x8#4 ++ x.bits ++ y.bits ++ 0x0#4
  | .orVxVy x y => 0x8#4 ++ x.bits ++ y.bits ++ 0x1#4
  | .andVxVy x y => 0x8#4 ++ x.bits ++ y.bits ++ 0x2#4
  | .xorVxVy x y => 0x8#4 ++ x.bits ++ y.bits ++ 0x3#4
  | .addVxVy x y => 0x8#4 ++ x.bits ++ y.bits ++ 0x4#4
  | .subVxVy x y => 0x8#4 ++ x.bits ++ y.bits ++ 0x5#4
  | .shrVx x y => 0x8#4 ++ x.bits ++ y.bits ++ 0x6#4
  | .subnVxVy x y => 0x8#4 ++ x.bits ++ y.bits ++ 0x7#4
  | .shlVx x y => 0x8#4 ++ x.bits ++ y.bits ++ 0xE#4
  | .sneVxVy x y => 0x9#4 ++ x.bits ++ y.bits ++ 0x0#4
  | .ldINnn nnn => 0xA#4 ++ nnn
  | .jpV0Nnn nnn => 0xB#4 ++ nnn
  | .rndVxNn x nn => 0xC#4 ++ x.bits ++ nn
  | .drwVxVyN x y n => 0xD#4 ++ x.bits ++ y.bits ++ n
  | .skpVx x => 0xE#4 ++ x.bits ++ 0x9E#8
  | .sknpVx x => 0xE#4 ++ x.bits ++ 0xA1#8
  | .ldVxDt x => 0xF#4 ++ x.bits ++ 0x07#8
  | .ldVxK x => 0xF#4 ++ x.bits ++ 0x0A#8
  | .ldDtVx x => 0xF#4 ++ x.bits ++ 0x15#8
  | .ldStVx x => 0xF#4 ++ x.bits ++ 0x18#8
  | .addIVx x => 0xF#4 ++ x.bits ++ 0x1E#8
  | .ldFVx x => 0xF#4 ++ x.bits ++ 0x29#8
  | .ldBVx x => 0xF#4 ++ x.bits ++ 0x33#8
  | .ldMemVx x => 0xF#4 ++ x.bits ++ 0x55#8
  | .ldVxMem x => 0xF#4 ++ x.bits ++ 0x65#8

/-- The bytes of an instruction as memory holds them, high byte first (R56). -/
def encodeBytes (i : Instr) : List Byte := [highByte (encode i), lowByte (encode i)]

/-- A row of the opcode map: `match`, `mask`, and the instruction its fields make (R80, R81). -/
structure OpcodeRow where
  /-- the row's `match` -/
  pattern : Word
  /-- the row's `mask` -/
  mask : Word
  /-- the row's instruction, from the fields of the word -/
  build : Word → Instr

/-- Rows 1 to 19 of the opcode map (R81). -/
def opcodeRowsLow : List OpcodeRow :=
  [ ⟨0x00E0#16, 0xFFFF#16, fun _ => .cls⟩,
    ⟨0x00EE#16, 0xFFFF#16, fun _ => .ret⟩,
    ⟨0x1000#16, 0xF000#16, fun w => .jpNnn (nnnField w)⟩,
    ⟨0x2000#16, 0xF000#16, fun w => .callNnn (nnnField w)⟩,
    ⟨0x3000#16, 0xF000#16, fun w => .seVxNn (xField w) (nnField w)⟩,
    ⟨0x4000#16, 0xF000#16, fun w => .sneVxNn (xField w) (nnField w)⟩,
    ⟨0x5000#16, 0xF00F#16, fun w => .seVxVy (xField w) (yField w)⟩,
    ⟨0x6000#16, 0xF000#16, fun w => .ldVxNn (xField w) (nnField w)⟩,
    ⟨0x7000#16, 0xF000#16, fun w => .addVxNn (xField w) (nnField w)⟩,
    ⟨0x8000#16, 0xF00F#16, fun w => .ldVxVy (xField w) (yField w)⟩,
    ⟨0x8001#16, 0xF00F#16, fun w => .orVxVy (xField w) (yField w)⟩,
    ⟨0x8002#16, 0xF00F#16, fun w => .andVxVy (xField w) (yField w)⟩,
    ⟨0x8003#16, 0xF00F#16, fun w => .xorVxVy (xField w) (yField w)⟩,
    ⟨0x8004#16, 0xF00F#16, fun w => .addVxVy (xField w) (yField w)⟩,
    ⟨0x8005#16, 0xF00F#16, fun w => .subVxVy (xField w) (yField w)⟩,
    ⟨0x8006#16, 0xF00F#16, fun w => .shrVx (xField w) (yField w)⟩,
    ⟨0x8007#16, 0xF00F#16, fun w => .subnVxVy (xField w) (yField w)⟩,
    ⟨0x800E#16, 0xF00F#16, fun w => .shlVx (xField w) (yField w)⟩,
    ⟨0x9000#16, 0xF00F#16, fun w => .sneVxVy (xField w) (yField w)⟩ ]

/-- Rows 20 to 34 of the opcode map (R81). -/
def opcodeRowsHigh : List OpcodeRow :=
  [ ⟨0xA000#16, 0xF000#16, fun w => .ldINnn (nnnField w)⟩,
    ⟨0xB000#16, 0xF000#16, fun w => .jpV0Nnn (nnnField w)⟩,
    ⟨0xC000#16, 0xF000#16, fun w => .rndVxNn (xField w) (nnField w)⟩,
    ⟨0xD000#16, 0xF000#16, fun w => .drwVxVyN (xField w) (yField w) (nField w)⟩,
    ⟨0xE09E#16, 0xF0FF#16, fun w => .skpVx (xField w)⟩,
    ⟨0xE0A1#16, 0xF0FF#16, fun w => .sknpVx (xField w)⟩,
    ⟨0xF007#16, 0xF0FF#16, fun w => .ldVxDt (xField w)⟩,
    ⟨0xF00A#16, 0xF0FF#16, fun w => .ldVxK (xField w)⟩,
    ⟨0xF015#16, 0xF0FF#16, fun w => .ldDtVx (xField w)⟩,
    ⟨0xF018#16, 0xF0FF#16, fun w => .ldStVx (xField w)⟩,
    ⟨0xF01E#16, 0xF0FF#16, fun w => .addIVx (xField w)⟩,
    ⟨0xF029#16, 0xF0FF#16, fun w => .ldFVx (xField w)⟩,
    ⟨0xF033#16, 0xF0FF#16, fun w => .ldBVx (xField w)⟩,
    ⟨0xF055#16, 0xF0FF#16, fun w => .ldMemVx (xField w)⟩,
    ⟨0xF065#16, 0xF0FF#16, fun w => .ldVxMem (xField w)⟩ ]

/-- The opcode map (R81), all 34 rows. -/
def opcodeRows : List OpcodeRow := opcodeRowsLow ++ opcodeRowsHigh

/-- `Decode` as R80 writes it: the first row whose masked word is its match; `none` is ILLEGAL. -/
def decodeByRows (w : Word) : Option Instr :=
  (opcodeRows.find? fun r => (w &&& r.mask) == r.pattern).map (·.build w)

/-- The instruction the decoder reads from an instruction whose bits are `w`, of which the table gives `nbits`
(16 in every row): bit 0 is the word's least significant bit, the bits above are 0, and the word is laid out high byte
first (R56). -/
def decodeTableWord (nbits w : Nat) : Option Instr :=
  let word : Word := BitVec.ofNat 16 (w % 2 ^ nbits)
  match decodeBytes [highByte word, lowByte word] with
  | .ok (i, _) => some i
  | .error _ => none

end Sys2Proof
end

