-- ==== Sys2Proof/Machine/State.lean ====
section
/-! DEFINITION. Machine/State.lean: the block's state (10_state.md R20 to R37), the reasons a step can stop, and the
state after reset (R37, R270). -/

namespace Sys2Proof.Machine

/-- Why a step would end outside the machine. EMPTY: every fault of the spec is a state of the machine, the fault latch
set and the engine halted (R230, R232, R109), so a step that faults answers a NEXT state and nothing ever stops the
machine from outside (log 8). Safe: no state is cut off. -/
inductive Fault where
deriving DecidableEq, Repr

/-- Why an instruction has no meaning in the model. -/
inductive Refusal where
  /-- raised by an arm of `exec` whose instruction has no meaning yet; no arm is left so. Safe: the machine stops. -/
  | notModelled (mnemonic : String)
deriving DecidableEq, Repr

/-- The cause codes of the fault latch (R231). -/
inductive FaultCause where
  /-- pc outside 0x200 to 0xFFE at the start of a step (R101) -/
  | pcOutOfRange
  /-- the word matches no pattern (R78, R103) -/
  | illegalInstruction
  /-- a memory dump with a bound outside [0, 4096] (R257) -/
  | dumpRange
  /-- CALL with sp = 16 (R142) -/
  | stackOverflow
  /-- RET with sp = 0 (R140) -/
  | stackUnderflow
  /-- a data access at 0x1000 or above (R57) -/
  | memOutOfRange
  /-- an instruction's write below 0x200 (R58) -/
  | lowMemoryWrite
  /-- a flag-writing instruction names VF as an operand (R106) -/
  | flagOperand
  /-- a key index of 16 or more (R210, R211) -/
  | keyIndexRange
deriving DecidableEq, Repr

/-- The extra datum of a cause (R34, R231): an address for MEM_OUT_OF_RANGE and LOW_MEMORY_WRITE, the bounds for
DUMP_RANGE, none otherwise. An address is an exact integer (R57). -/
inductive FaultInfo where
  | none
  | address (a : Nat)
  | bounds (start stop : Int)
deriving DecidableEq, Repr

/-- What the fault latch records once it is set (R34). -/
structure FaultRecord where
  cause : FaultCause
  /-- the pc of the step that faulted -/
  pc : Word
  /-- the instruction word, when one was fetched -/
  word : Option Word
  info : FaultInfo
deriving DecidableEq, Repr

/-- The display buffer: 32 rows of 64 one-bit pixels, row-major (R30). Pixel p is bit `p % 64` of row `p / 64`
(log 11); `Display.pixel` reads it. -/
abbrev Display := Vector (BitVec 64) 32

/-- The block's whole state (R20). Every field but `draws` is the spec's. -/
structure State where
  /-- M: the bytes that differ from what an unlisted address reads as, in one canonical form (R50; log 1) -/
  mem : List Host.Cell
  /-- V0 to VF (R21); index 15 is VF (R22) -/
  v : Vector Byte 16
  /-- the index register (R24) -/
  I : Word
  /-- the program counter (R25) -/
  pc : Word
  /-- the call stack's entries (R27) -/
  stack : Vector Word 16
  /-- the stack pointer, 0 to 16 (R28) -/
  sp : Fin 17
  /-- the delay timer (R29) -/
  DT : Byte
  /-- the sound timer (R29) -/
  ST : Byte
  /-- the display buffer (R30) -/
  disp : Display
  /-- the key latch, true while the key is down (R33) -/
  key : Vector Bool 16
  /-- the fault latch (R34): none while `latched` is false, when its other fields are unspecified (log 7) -/
  fault : Option FaultRecord
  /-- the MODEL's own: how many free values have been drawn (log 5) -/
  draws : Nat
deriving DecidableEq, Repr

/-- The state right after reset (R37, R270). Memory lists nothing: an unlisted address reads as its reset contents. -/
def State.reset : State where
  mem := []
  v := Vector.replicate 16 0
  I := 0
  pc := 0x200
  stack := Vector.replicate 16 0
  sp := 0
  DT := 0
  ST := 0
  disp := Vector.replicate 32 0
  key := Vector.replicate 16 false
  fault := none
  draws := 0

end Sys2Proof.Machine
end

