-- ==== Sys2Proof/Machine/Flags.lean ====
section
/-! DEFINITION. Machine/Flags.lean: every flag computation of the spec, each the value VF takes (R22). -/

namespace Sys2Proof.Machine

/-- A flag in VF is the byte 1 or 0. -/
def flagByte (b : Bool) : Byte := if b then 1 else 0

/-- The carry of 8XY4: 1 if Vy > 255 - Vx (R168). -/
def carryFlag (a b : Byte) : Byte := flagByte (decide (b.toNat > 255 - a.toNat))

/-- The no-borrow flag of 8XY5: 1 if a > b, strictly (R169, C1). -/
def subFlag (a b : Byte) : Byte := flagByte (decide (a.toNat > b.toNat))

/-- The no-borrow flag of 8XY7: 1 if a < b, strictly (R171, C1). -/
def subnFlag (a b : Byte) : Byte := flagByte (decide (a.toNat < b.toNat))

/-- The bit 8XY6 shifts out, bit 0 (R170). -/
def shrFlag (a : Byte) : Byte := flagByte (a.getLsbD 0)

/-- The bit 8XYE shifts out, bit 7 (R172). -/
def shlFlag (a : Byte) : Byte := flagByte (a.getLsbD 7)

/-- The collision detector's output (R124). -/
def collisionFlag (hit : Bool) : Byte := flagByte hit

end Sys2Proof.Machine
end

