-- ==== Sys2Proof/Machine/Operands.lean ====
section
/-! DEFINITION. Machine/Operands.lean: the operand forms (R74, R193): which instructions may not name VF (R106),
immediates as 16-bit values, effective addresses, glyph addresses, decimal digits, key indices, sprite pixels. -/

namespace Sys2Proof.Machine

/-- `FlagOperandConflict` (R106): an instruction that writes VF as a flag names VF as an operand. -/
def flagOperandConflict (i : Instr) : Bool :=
  match i with
  | .addVxVy x y | .subVxVy x y | .subnVxVy x y | .drwVxVyN x y _ => x == VF || y == VF
  | .shrVx x _ | .shlVx x _ => x == VF
  | .cls | .ret | .jpNnn _ | .callNnn _ | .seVxNn _ _ | .sneVxNn _ _ | .seVxVy _ _ | .ldVxNn _ _ | .addVxNn _ _
  | .ldVxVy _ _ | .orVxVy _ _ | .andVxVy _ _ | .xorVxVy _ _ | .sneVxVy _ _ | .ldINnn _ | .jpV0Nnn _ | .rndVxNn _ _
  | .skpVx _ | .sknpVx _ | .ldVxDt _ | .ldVxK _ | .ldDtVx _ | .ldStVx _ | .addIVx _ | .ldFVx _ | .ldBVx _
  | .ldMemVx _ | .ldVxMem _ => false

/-- `zext_16(nnn)` (R74). -/
def addressImmediate (nnn : BitVec 12) : Word := nnn.zeroExtend 16

/-- The effective address `I + k`, an exact integer with no wrap (R57, R193). -/
def effectiveAddress (index : Word) (k : Nat) : Nat := index.toNat + k

/-- The glyph address `Vx * 5`; Vx is not masked (R192). -/
def glyphAddress (b : Byte) : Word := BitVec.ofNat 16 (b.toNat * 5)

/-- Hundreds, tens and ones of a byte (R195). -/
def bcdDigits (b : Byte) : List Byte :=
  [BitVec.ofNat 8 (b.toNat / 100), BitVec.ofNat 8 (b.toNat / 10 % 10), BitVec.ofNat 8 (b.toNat % 10)]

/-- The key a register names, none at 16 or above (R210, R211). -/
def keyIndex (b : Byte) : Option (Fin 16) := if h : b.toNat < 16 then some ⟨b.toNat, h⟩ else none

/-- The keys that are down, in index order: the set D of R213. -/
def downKeys (key : Vector Bool 16) : List (Fin 16) := (List.finRange 16).filter fun k => key[k.val]

/-- The draw `WaitKeyChoice` (R213): the `n`-th pick among the down keys `k :: ks`; every element can be picked. -/
def chosenKey (n : Nat) (k : Fin 16) (ks : List (Fin 16)) : Fin 16 :=
  ((k :: ks)[Config.waitKeyPick n % (ks.length + 1)]?).getD k

/-- The target pixel of row `r`, column `c` of a sprite at (cx, cy), an exact integer with no wrap (R121). -/
def spritePixel (cx cy r c : Nat) : Nat := cx + c + (cy + r) * 64

/-- The target pixels of the set bits of sprite row `r`, most significant bit first (R121, R122). -/
def rowTargets (cx cy r : Nat) (row : Byte) : List Nat :=
  ((List.range 8).filter fun c => row.getLsbD (7 - c)).map (spritePixel cx cy r)

/-- The target pixels of the set bits of a sprite whose first row is row `r`, in the order of R122's loops. -/
def spriteTargets (cx cy : Nat) : Nat → List Byte → List Nat
  | _, [] => []
  | r, row :: rows => rowTargets cx cy r row ++ spriteTargets cx cy (r + 1) rows

end Sys2Proof.Machine
end

