-- ==== Sys2Proof/Machine/Ops.lean ====
section
/-! DEFINITION. Machine/Ops.lean: the named operations every meaning is built from: memory (20_memory.md), registers,
the call stack and the display buffer (10_state.md), raising a fault (60_exceptions.md R232, R233), and the ways a
step ends (40_engine_step.md R104, R107). -/

namespace Sys2Proof.Machine

/-! ### Memory -/

/-- What an address reads as when memory lists nothing there: its contents at reset (R37, R52): the glyph table below
0x050, zero above (log 1, log 2). -/
def Memory.background (a : Nat) : Byte := if h : a < 80 then Config.glyphData ⟨a, h⟩ else 0

/-- The byte at an address. A read changes nothing (R59). -/
def Memory.read : List Host.Cell → Nat → Byte
  | [], a => Memory.background a
  | c :: m, a => if c.1 = a then c.2 else Memory.read m a

/-- Puts a byte into an address-ordered list; a byte equal to the address's background is not listed. -/
def Memory.put : List Host.Cell → Nat → Byte → List Host.Cell
  | [], a, b => if b = Memory.background a then [] else [(a, b)]
  | c :: m, a, b =>
    if a < c.1 then (if b = Memory.background a then c :: m else (a, b) :: c :: m)
    else if a = c.1 then (if b = Memory.background a then m else (a, b) :: m)
    else c :: Memory.put m a b

/-- Writes one byte (R59). There is no address at or above 0x1000 (R50): nothing is written there. -/
def Memory.write (m : List Host.Cell) (a : Nat) (b : Byte) : List Host.Cell :=
  if a < 0x1000 then Memory.put m a b else m

/-- Writes bytes at consecutive addresses, lowest first (R55, R195, R196, R250). -/
def Memory.writeBytes : List Host.Cell → Nat → List Byte → List Host.Cell
  | m, _, [] => m
  | m, a, b :: bs => Memory.writeBytes (Memory.write m a b) (a + 1) bs

/-- Reads `n` bytes at consecutive addresses (R55). -/
def Memory.readBytes (m : List Host.Cell) (a n : Nat) : List Byte :=
  (List.range n).map fun k => Memory.read m (a + k)

/-- The canonical form: addresses strictly rising, all below 0x1000, no entry equal to its background. -/
abbrev Memory.wf (m : List Host.Cell) : Prop :=
  m.Pairwise (fun c d => c.1 < d.1) ∧ ∀ c ∈ m, c.1 < 0x1000 ∧ c.2 ≠ Memory.background c.1

/-! ### Faults -/

/-- What `raise Fault(cause, info)` names (R9). -/
structure Raise where
  cause : FaultCause
  info : FaultInfo
deriving DecidableEq, Repr

/-- The number of a cause (R231). -/
def FaultCause.code (c : FaultCause) : Nat :=
  match c with
  | .pcOutOfRange => 1
  | .illegalInstruction => 2
  | .dumpRange => 3
  | .stackOverflow => 4
  | .stackUnderflow => 5
  | .memOutOfRange => 6
  | .lowMemoryWrite => 7
  | .flagOperand => 8
  | .keyIndexRange => 9

/-- Fault entry (R232): the latch records the cause, the pc as it stands, the word when one was fetched, and the info;
nothing else changes (R233). No handler is entered and there is no return from a fault (R237). -/
def State.latch (s : State) (cause : FaultCause) (word : Option Word) (info : FaultInfo) : State :=
  { s with fault := some { cause, pc := s.pc, word, info } }

/-- An instruction raises a fault: its step ends with the latch set, the recorded word being its own (R232). -/
def raise (i : Instr) (s : State) (r : Raise) : Host.Outcome State Fault Refusal :=
  .next (s.latch r.cause (some (encode i)) r.info)

/-- The check of `MemRead(addr, 1)` (R57). -/
def readCheck (a : Nat) : Option Raise :=
  if a ≥ 0x1000 then some ⟨.memOutOfRange, .address a⟩ else none

/-- The checks of `MemWrite(addr, 1, v)`: range first (R57), then low memory (R58). -/
def writeCheck (a : Nat) : Option Raise :=
  if a ≥ 0x1000 then some ⟨.memOutOfRange, .address a⟩
  else if a < 0x200 then some ⟨.lowMemoryWrite, .address a⟩ else none

/-- The fault of the first of the accesses at I + 0, …, I + (n - 1) that fails (R235). -/
def firstFailure (check : Nat → Option Raise) (index : Word) (n : Nat) : Option Raise :=
  (List.range n).findSome? fun k => check (effectiveAddress index k)

/-- Runs `body` when no check failed; a failed check raises its fault before any write (R233). -/
def unlessRaised (i : Instr) (s : State) (failure : Option Raise) (body : Host.Outcome State Fault Refusal) :
    Host.Outcome State Fault Refusal :=
  match failure with
  | some r => raise i s r
  | none => body

/-- The flag-register operand check, before execute (R106). -/
def flagOperandFailure (i : Instr) : Option Raise :=
  if flagOperandConflict i then some ⟨.flagOperand, .none⟩ else none

/-! ### Registers -/

/-- `V[x]` (R9). -/
def State.getV (s : State) (x : Reg) : Byte := s.v[x.val]

/-- `V[x] <- b` (R9). -/
def State.setV (s : State) (x : Reg) (b : Byte) : State := { s with v := s.v.set x.val b }

/-- `V[x] <- b` and then VF, as the flag-writing instructions write them (R167). -/
def State.setVFlag (s : State) (x : Reg) (b flag : Byte) : State := (s.setV x b).setV VF flag

/-- `I <- w` (R9). -/
def State.setI (s : State) (w : Word) : State := { s with I := w }

/-- `V[k] <- bytes[k]` for every k below the number of bytes (R197). -/
def State.setFirst (s : State) (bytes : List Byte) : State :=
  { s with v := Vector.ofFn fun k => (bytes[k.val]?).getD s.v[k.val] }

/-- V0 to V[x] (R196). -/
def State.firstRegs (s : State) (x : Reg) : List Byte := s.v.toList.take (x.val + 1)

/-- Takes note that one more free value has been drawn (log 5). -/
def State.countDraw (s : State) : State := { s with draws := s.draws + 1 }

/-- Writes bytes to memory at consecutive addresses. -/
def State.store (s : State) (a : Nat) (bytes : List Byte) : State :=
  { s with mem := Memory.writeBytes s.mem a bytes }

/-! ### Call stack -/

/-- `Push(a)` (R28): none at sp = 16, where it overflows. -/
def State.push (s : State) (a : Word) : Option State :=
  if h : s.sp.val < 16 then
    some { s with stack := s.stack.set s.sp.val a, sp := ⟨s.sp.val + 1, Nat.succ_lt_succ h⟩ }
  else none

/-- `Pop()` (R28): none at sp = 0, where it underflows; the entry read keeps its value (R27). -/
def State.pop (s : State) : Option (Word × State) :=
  if h : 0 < s.sp.val then
    some (s.stack[s.sp.val - 1], { s with sp := ⟨s.sp.val - 1, Nat.lt_of_le_of_lt (Nat.sub_le _ _) s.sp.isLt⟩ })
  else none

/-! ### Display -/

/-- `disp[p]` (R9, R30): bit `p % 64` of row `p / 64`. There is no pixel at or above 2048. -/
def Display.pixel (d : Display) (p : Nat) : Bool :=
  if h : p < 2048 then (d[p / 64]'(Nat.div_lt_of_lt_mul h)).getLsbD (p % 64) else false

/-- `disp[p] <- not disp[p]` (R122). A pixel at or above 2048 is dropped (R125). -/
def Display.flip (d : Display) (p : Nat) : Display :=
  if h : p < 2048 then
    d.set (p / 64) (d[p / 64]'(Nat.div_lt_of_lt_mul h) ^^^ BitVec.twoPow 64 (p % 64)) (Nat.div_lt_of_lt_mul h)
  else d

/-- One set sprite bit (R122): it collides when its pixel was on (R124), and flips it. -/
def plot (acc : Display × Bool) (p : Nat) : Display × Bool :=
  (Display.flip acc.1 p, acc.2 || Display.pixel acc.1 p)

/-- The XORs of one draw, in order, with the collision detector's output (R122, R124). -/
def drawTargets (d : Display) (targets : List Nat) : Display × Bool := targets.foldl plot (d, false)

/-- Every pixel off (R120). -/
def Display.clear : Display := Vector.replicate 32 0

/-- The target pixels of DRW's set sprite bits, in order (R121, R122). -/
def State.drawnPixels (s : State) (x y : Reg) (n : BitVec 4) : List Nat :=
  spriteTargets (s.getV x).toNat (s.getV y).toNat 0 (Memory.readBytes s.mem s.I.toNat n.toNat)

/-- The writes of DRW: the display and VF (R122). -/
def State.draw (s : State) (targets : List Nat) : State :=
  let drawn := drawTargets s.disp targets
  { s with disp := drawn.1 }.setV VF (collisionFlag drawn.2)

/-! ### The ends of a step -/

/-- The step ends with pc at `target` (R104, R107). -/
def jumpTo (target : Word) (s : State) : Host.Outcome State Fault Refusal := .next { s with pc := target }

/-- The default advance, `nextpc = pc0 + 2` (R104). -/
def advance (s : State) : Host.Outcome State Fault Refusal := jumpTo (s.pc + 2) s

/-- A conditional skip: `pc0 + 4` when the condition holds, else `pc0 + 2` (R104, R148). -/
def skipIf (c : Bool) (s : State) : Host.Outcome State Fault Refusal :=
  jumpTo (if c then s.pc + 4 else s.pc + 2) s

/-- The step ends with pc unchanged and nothing written (R104, R213). -/
def stay (s : State) : Host.Outcome State Fault Refusal := .next s

end Sys2Proof.Machine
end

