-- ==== Sys2Proof/Machine/Alu.lean ====
section
/-! DEFINITION. Machine/Alu.lean: register arithmetic and logic (43_alu.md). Operands are read before anything is
written (R167); every result is taken modulo 256 (R166). -/

namespace Sys2Proof.Machine

/-- LD Vx, nn (R160). -/
def execLdVxNn (x : Reg) (nn : Byte) (s : State) : Host.Outcome State Fault Refusal :=
  advance (s.setV x nn)

/-- ADD Vx, nn, with no flag (R161). -/
def execAddVxNn (x : Reg) (nn : Byte) (s : State) : Host.Outcome State Fault Refusal :=
  advance (s.setV x (s.getV x + nn))

/-- LD Vx, Vy (R162). -/
def execLdVxVy (x y : Reg) (s : State) : Host.Outcome State Fault Refusal :=
  advance (s.setV x (s.getV y))

/-- OR Vx, Vy (R163). -/
def execOrVxVy (x y : Reg) (s : State) : Host.Outcome State Fault Refusal :=
  advance (s.setV x (s.getV x ||| s.getV y))

/-- AND Vx, Vy (R164). -/
def execAndVxVy (x y : Reg) (s : State) : Host.Outcome State Fault Refusal :=
  advance (s.setV x (s.getV x &&& s.getV y))

/-- XOR Vx, Vy (R165). -/
def execXorVxVy (x y : Reg) (s : State) : Host.Outcome State Fault Refusal :=
  advance (s.setV x (s.getV x ^^^ s.getV y))

/-- ADD Vx, Vy, VF the carry (R168). -/
def execAddVxVy (x y : Reg) (s : State) : Host.Outcome State Fault Refusal :=
  unlessRaised (.addVxVy x y) s (flagOperandFailure (.addVxVy x y))
    (advance (s.setVFlag x (s.getV x + s.getV y) (carryFlag (s.getV x) (s.getV y))))

/-- SUB Vx, Vy, VF the strict no-borrow (R169). -/
def execSubVxVy (x y : Reg) (s : State) : Host.Outcome State Fault Refusal :=
  unlessRaised (.subVxVy x y) s (flagOperandFailure (.subVxVy x y))
    (advance (s.setVFlag x (s.getV x - s.getV y) (subFlag (s.getV x) (s.getV y))))

/-- SHR Vx, VF the bit shifted out; y is ignored (R170). -/
def execShrVx (x y : Reg) (s : State) : Host.Outcome State Fault Refusal :=
  unlessRaised (.shrVx x y) s (flagOperandFailure (.shrVx x y))
    (advance (s.setVFlag x (s.getV x >>> 1) (shrFlag (s.getV x))))

/-- SUBN Vx, Vy, VF the strict no-borrow (R171). -/
def execSubnVxVy (x y : Reg) (s : State) : Host.Outcome State Fault Refusal :=
  unlessRaised (.subnVxVy x y) s (flagOperandFailure (.subnVxVy x y))
    (advance (s.setVFlag x (s.getV y - s.getV x) (subnFlag (s.getV x) (s.getV y))))

/-- SHL Vx, VF the bit shifted out; y is ignored (R172). -/
def execShlVx (x y : Reg) (s : State) : Host.Outcome State Fault Refusal :=
  unlessRaised (.shlVx x y) s (flagOperandFailure (.shlVx x y))
    (advance (s.setVFlag x (s.getV x <<< 1) (shlFlag (s.getV x))))

/-- RND Vx, nn: a free byte masked by nn (R173; log 3). -/
def execRndVxNn (x : Reg) (nn : Byte) (s : State) : Host.Outcome State Fault Refusal :=
  advance ((s.setV x (Config.randomByte s.draws &&& nn)).countDraw)

end Sys2Proof.Machine
end

