-- ==== Sys2Proof/Machine/ControlTransfer.lean ====
section
/-! DEFINITION. Machine/ControlTransfer.lean: return, jumps, call and skips (42_control_transfer.md). -/

namespace Sys2Proof.Machine

/-- RET (R140): the popped address plus 2; STACK_UNDERFLOW at sp = 0. -/
def execRet (s : State) : Host.Outcome State Fault Refusal :=
  match s.pop with
  | some (a, s') => jumpTo (a + 2) s'
  | none => raise .ret s ⟨.stackUnderflow, .none⟩

/-- JP nnn (R141). -/
def execJpNnn (nnn : BitVec 12) (s : State) : Host.Outcome State Fault Refusal :=
  jumpTo (addressImmediate nnn) s

/-- CALL nnn (R142): pushes its own address; STACK_OVERFLOW at sp = 16. -/
def execCallNnn (nnn : BitVec 12) (s : State) : Host.Outcome State Fault Refusal :=
  match s.push s.pc with
  | some s' => jumpTo (addressImmediate nnn) s'
  | none => raise (.callNnn nnn) s ⟨.stackOverflow, .none⟩

/-- SE Vx, nn (R143). -/
def execSeVxNn (x : Reg) (nn : Byte) (s : State) : Host.Outcome State Fault Refusal :=
  skipIf (s.getV x == nn) s

/-- SNE Vx, nn (R144). -/
def execSneVxNn (x : Reg) (nn : Byte) (s : State) : Host.Outcome State Fault Refusal :=
  skipIf (s.getV x != nn) s

/-- SE Vx, Vy (R145). -/
def execSeVxVy (x y : Reg) (s : State) : Host.Outcome State Fault Refusal :=
  skipIf (s.getV x == s.getV y) s

/-- SNE Vx, Vy (R146). -/
def execSneVxVy (x y : Reg) (s : State) : Host.Outcome State Fault Refusal :=
  skipIf (s.getV x != s.getV y) s

/-- JP V0, nnn (R147). -/
def execJpV0Nnn (nnn : BitVec 12) (s : State) : Host.Outcome State Fault Refusal :=
  jumpTo (addressImmediate nnn + (s.getV 0).zeroExtend 16) s

end Sys2Proof.Machine
end

