-- ==== Sys2Proof/Machine/Display.lean ====
section
/-! DEFINITION. Machine/Display.lean: 00E0 and DXYN (41_display.md). -/

namespace Sys2Proof.Machine

/-- CLS (R120). -/
def execCls (s : State) : Host.Outcome State Fault Refusal :=
  advance { s with disp := Display.clear }

/-- DRW Vx, Vy, n (R121 to R125): VF may not be an operand (R106), then every row is read, then the pixels are XORed
and VF gets the collision. -/
def execDrwVxVyN (x y : Reg) (n : BitVec 4) (s : State) : Host.Outcome State Fault Refusal :=
  unlessRaised (.drwVxVyN x y n) s (flagOperandFailure (.drwVxVyN x y n))
    (unlessRaised (.drwVxVyN x y n) s (firstFailure readCheck s.I n.toNat)
      (advance (s.draw (s.drawnPixels x y n))))

end Sys2Proof.Machine
end

