-- ==== Sys2Proof/Machine/IndexMemory.lean ====
section
/-! DEFINITION. Machine/IndexMemory.lean: the index register and memory transfer (44_index_memory.md). No
memory-transfer instruction changes I (R194). -/

namespace Sys2Proof.Machine

/-- LD I, nnn (R190). -/
def execLdINnn (nnn : BitVec 12) (s : State) : Host.Outcome State Fault Refusal :=
  advance (s.setI (addressImmediate nnn))

/-- ADD I, Vx, modulo 2^16, VF unchanged (R191). -/
def execAddIVx (x : Reg) (s : State) : Host.Outcome State Fault Refusal :=
  advance (s.setI (s.I + (s.getV x).zeroExtend 16))

/-- LD F, Vx (R192). -/
def execLdFVx (x : Reg) (s : State) : Host.Outcome State Fault Refusal :=
  advance (s.setI (glyphAddress (s.getV x)))

/-- LD B, Vx (R195): all three addresses are checked before the first write. -/
def execLdBVx (x : Reg) (s : State) : Host.Outcome State Fault Refusal :=
  unlessRaised (.ldBVx x) s (firstFailure writeCheck s.I 3)
    (advance (s.store (effectiveAddress s.I 0) (bcdDigits (s.getV x))))

/-- LD [I], Vx (R196): all x + 1 addresses are checked before the first write. -/
def execLdMemVx (x : Reg) (s : State) : Host.Outcome State Fault Refusal :=
  unlessRaised (.ldMemVx x) s (firstFailure writeCheck s.I (x.val + 1))
    (advance (s.store (effectiveAddress s.I 0) (s.firstRegs x)))

/-- LD Vx, [I] (R197): every byte is read before the first register is written. -/
def execLdVxMem (x : Reg) (s : State) : Host.Outcome State Fault Refusal :=
  unlessRaised (.ldVxMem x) s (firstFailure readCheck s.I (x.val + 1))
    (advance (s.setFirst (Memory.readBytes s.mem (effectiveAddress s.I 0) (x.val + 1))))

end Sys2Proof.Machine
end

