-- ==== Sys2Proof/Machine/KeysTimers.lean ====
section
/-! DEFINITION. Machine/KeysTimers.lean: the key-skip group, wait-for-key, the timer reads and writes, and the timer
ticks (45_keys_timers.md). -/

namespace Sys2Proof.Machine

/-- SKP Vx (R210); KEY_INDEX_RANGE at Vx >= 16. -/
def execSkpVx (x : Reg) (s : State) : Host.Outcome State Fault Refusal :=
  match keyIndex (s.getV x) with
  | some k => skipIf s.key[k.val] s
  | none => raise (.skpVx x) s ⟨.keyIndexRange, .none⟩

/-- SKNP Vx (R211); KEY_INDEX_RANGE at Vx >= 16. -/
def execSknpVx (x : Reg) (s : State) : Host.Outcome State Fault Refusal :=
  match keyIndex (s.getV x) with
  | some k => skipIf (!s.key[k.val]) s
  | none => raise (.sknpVx x) s ⟨.keyIndexRange, .none⟩

/-- LD Vx, DT (R212). -/
def execLdVxDt (x : Reg) (s : State) : Host.Outcome State Fault Refusal :=
  advance (s.setV x s.DT)

/-- LD Vx, K (R213): with no key down nothing changes; else a free choice among the down keys (log 4). -/
def execLdVxK (x : Reg) (s : State) : Host.Outcome State Fault Refusal :=
  match downKeys s.key with
  | [] => stay s
  | k :: ks => advance ((s.setV x (BitVec.ofNat 8 (chosenKey s.draws k ks).val)).countDraw)

/-- LD DT, Vx (R214). -/
def execLdDtVx (x : Reg) (s : State) : Host.Outcome State Fault Refusal :=
  advance { s with DT := s.getV x }

/-- LD ST, Vx (R215). -/
def execLdStVx (x : Reg) (s : State) : Host.Outcome State Fault Refusal :=
  advance { s with ST := s.getV x }

/-- One decrement of a timer that is not zero (R216, R217). -/
def timerTick (t : Byte) : Byte := if t = 0 then 0 else t - 1

end Sys2Proof.Machine
end

