-- ==== Sys2Proof/Machine/Engine.lean ====
section
/-! DEFINITION. Machine/Engine.lean: the parts of one step around `exec` (40_engine_step.md R100 to R103, R109): the
halted check, the pc check, fetch, decode. Machine/Step.lean only calls them. -/

namespace Sys2Proof.Machine

/-- The pc check (R101): a step fetches only when 0x200 <= pc <= 0xFFE. -/
def State.fetchable (s : State) : Bool := decide (0x200 ≤ s.pc.toNat ∧ s.pc.toNat ≤ 0xFFE)

/-- Fetch (R102): `w = M[pc] ++ M[pc + 1]`, high byte first. -/
def State.fetchWord (s : State) : Word :=
  wordOfBytes (Memory.read s.mem s.pc.toNat) (Memory.read s.mem (s.pc.toNat + 1))

/-- PC_OUT_OF_RANGE: no word is fetched (R101, R232). -/
def State.latchPcOutOfRange (s : State) : State := s.latch .pcOutOfRange none .none

/-- ILLEGAL_INSTRUCTION, recording the word (R103, R232). -/
def State.latchIllegal (s : State) (w : Word) : State := s.latch .illegalInstruction (some w) .none

/-- `Step()` (R100): the checks in R235's order, then `run` on the decoded instruction. With the latch set nothing
changes (R109). -/
def engineStep (run : Instr → State → Host.Outcome State Fault Refusal) (s : State) :
    Host.Outcome State Fault Refusal :=
  match s.fault with
  | some _ => .next s
  | none =>
    if s.fetchable then
      match decode s.fetchWord with
      | .ok i => run i s
      | .error _ => .next (s.latchIllegal s.fetchWord)
    else .next s.latchPcOutOfRange

/-- An instruction word laid out at pc, high byte first (R56, R102). -/
def State.placeWord (s : State) (w : Word) : State := s.store s.pc.toNat [highByte w, lowByte w]

end Sys2Proof.Machine
end

