-- ==== Sys2Proof/Machine/Step.lean ====
section
/-! DEFINITION. Machine/Step.lean: one step of the engine (R100), and the placing of an instruction where the next step
fetches it. -/

namespace Sys2Proof.Machine

/-- `Step()` (R100). -/
def step (s : State) : Host.Outcome State Fault Refusal := engineStep exec s

/-- `s` with the instruction word of `nbits` bits `w` at pc; a program comes to run from reset by the host's
LoadProgram (R250, R272), which this stands for (log 15). -/
def State.withFetchWord (s : State) (nbits w : Nat) : State :=
  s.placeWord (BitVec.ofNat 16 (w % 2 ^ nbits))

end Sys2Proof.Machine
end

