-- ==== Sys2Proof/Machine/Record.lean ====
section
/-! DEFINITION. Machine/Record.lean: the outcome record of a step (40_engine_step.md R108) and the diagnostic events
(60_exceptions.md R240). The record is an output and is not kept (R35), so it is a function of the state before the
step (log 10). -/

namespace Sys2Proof.Machine

/-- The one non-fatal event (R240): a set sprite bit whose target pixel is outside the buffer. -/
inductive Event where
  | pixelDropped (p : Nat)
deriving DecidableEq, Repr

/-- The outcome record of a step (R108). -/
inductive StepRecord where
  /-- the instruction at `pc`, word `word`, completed and emitted `events` -/
  | executed (pc : Word) (word : Word) (events : List Event)
  /-- FX0A found no key down -/
  | waiting (pc : Word) (word : Word)
  /-- this step raised a fault -/
  | faulted (cause : FaultCause) (pc : Word) (word : Option Word)
  /-- the latch was already set, and the step did nothing -/
  | halted (latch : FaultRecord)
deriving DecidableEq, Repr

/-- The events of an instruction that completes: DRW emits one for each set bit outside the buffer, in drawing order
(R125); nothing else emits any. -/
def eventsOf (i : Instr) (s : State) : List Event :=
  match i with
  | .drwVxVyN x y n => ((s.drawnPixels x y n).filter fun p => decide (2048 ≤ p)).map .pixelDropped
  | .cls | .ret | .jpNnn _ | .callNnn _ | .seVxNn _ _ | .sneVxNn _ _ | .seVxVy _ _ | .ldVxNn _ _ | .addVxNn _ _
  | .ldVxVy _ _ | .orVxVy _ _ | .andVxVy _ _ | .xorVxVy _ _ | .addVxVy _ _ | .subVxVy _ _ | .shrVx _ _
  | .subnVxVy _ _ | .shlVx _ _ | .sneVxVy _ _ | .ldINnn _ | .jpV0Nnn _ | .rndVxNn _ _ | .skpVx _ | .sknpVx _
  | .ldVxDt _ | .ldVxK _ | .ldDtVx _ | .ldStVx _ | .addIVx _ | .ldFVx _ | .ldBVx _ | .ldMemVx _ | .ldVxMem _ => []

/-- FX0A with no key down waits (R213); no other instruction does (R239). -/
def waitsForKey (i : Instr) (s : State) : Bool :=
  match i with
  | .ldVxK _ => (downKeys s.key).isEmpty
  | .cls | .ret | .jpNnn _ | .callNnn _ | .seVxNn _ _ | .sneVxNn _ _ | .seVxVy _ _ | .ldVxNn _ _ | .addVxNn _ _
  | .ldVxVy _ _ | .orVxVy _ _ | .andVxVy _ _ | .xorVxVy _ _ | .addVxVy _ _ | .subVxVy _ _ | .shrVx _ _
  | .subnVxVy _ _ | .shlVx _ _ | .sneVxVy _ _ | .ldINnn _ | .jpV0Nnn _ | .rndVxNn _ _ | .drwVxVyN _ _ _ | .skpVx _
  | .sknpVx _ | .ldVxDt _ | .ldDtVx _ | .ldStVx _ | .addIVx _ | .ldFVx _ | .ldBVx _ | .ldMemVx _ | .ldVxMem _ =>
    false

/-- The record of a step that executes `i` from `s` and ends in `s'`. -/
def executedRecord (i : Instr) (s s' : State) : StepRecord :=
  match s'.fault with
  | some f => .faulted f.cause f.pc f.word
  | none => if waitsForKey i s then .waiting s.pc s.fetchWord else .executed s.pc s.fetchWord (eventsOf i s)

/-- The record `Step()` returns (R100, R108), none if the model refused the instruction (it refuses none). -/
def stepRecord (s : State) : Option StepRecord :=
  match s.fault with
  | some f => some (.halted f)
  | none =>
    if s.fetchable then
      match decode s.fetchWord with
      | .ok i =>
        match exec i s with
        | .next s' => some (executedRecord i s s')
        | .fault _ | .refused _ => none
      | .error _ => some (.faulted .illegalInstruction s.pc (some s.fetchWord))
    else some (.faulted .pcOutOfRange s.pc none)

end Sys2Proof.Machine
end

