-- ==== Sys2Proof/Machine/Transactions.lean ====
section
/-! DEFINITION. Machine/Transactions.lean: the host interface (60_exceptions.md R250 to R259, 70_reset_and_hazards.md
R270): each transaction is atomic (R60), and a run is a list of them in the host's order (R61). -/

namespace Sys2Proof.Machine

/-- What the host can do to the block (R258). -/
inductive Transaction where
  /-- `Reset()` (R270) -/
  | reset
  /-- `LoadProgram(bytes)` (R250) -/
  | loadProgram (bytes : List Byte)
  /-- `Step()` (R251) -/
  | step
  /-- `SetKey(k, down)` (R252) -/
  | setKey (k : Nat) (down : Bool)
  /-- `TickDelay()` (R216) -/
  | tickDelay
  /-- `TickSound()` (R217) -/
  | tickSound
  /-- `TickTimers()` (R253) -/
  | tickTimers
  /-- `ReadDisplay()` (R254) -/
  | readDisplay
  /-- `SoundActive()` (R255) -/
  | soundActive
  /-- `ReadStatus()` (R256) -/
  | readStatus
  /-- `DumpMemory(start, stop)` (R257) -/
  | dumpMemory (start stop : Int)
deriving DecidableEq, Repr

/-- What a transaction gives back (R258). -/
inductive Response where
  /-- done, nothing to give back -/
  | done
  /-- refused: nothing changed (R250, R252, R259) -/
  | refused
  /-- the step's outcome record (R251) -/
  | stepped (record : StepRecord)
  /-- the model refused the step's instruction (it refuses none) -/
  | unmodelled
  /-- the pixels, in index order (R254) -/
  | display (pixels : List Bool)
  /-- the sound output level (R255) -/
  | sound (active : Bool)
  /-- the fault latch, none while it is not set (R256) -/
  | status (latch : Option FaultRecord)
  /-- the dumped bytes (R257) -/
  | bytes (dump : List Byte)
  /-- the dump raised DUMP_RANGE (R257) -/
  | dumpFault
deriving DecidableEq, Repr

/-- `Reset()` (R270). The model's count of free values goes on, so a run after reset draws new ones (log 5). -/
def State.afterReset (s : State) : State := { State.reset with draws := s.draws }

/-- A state-changing host transaction, refused while the latch is set (R259). -/
def unlessHalted (s : State) (s' : State) : State × Response :=
  match s.fault with
  | some _ => (s, .refused)
  | none => (s', .done)

/-- `LoadProgram(bytes)` (R250): at most 0xE00 bytes, written from 0x200. -/
def State.loadProgram (s : State) (bytes : List Byte) : State × Response :=
  if bytes.length ≤ 0xE00 then unlessHalted s (s.store 0x200 bytes) else (s, .refused)

/-- `SetKey(k, down)` (R252): k from 0 to 15. -/
def State.setKey (s : State) (k : Nat) (down : Bool) : State × Response :=
  if h : k < 16 then unlessHalted s { s with key := s.key.set k down } else (s, .refused)

/-- `TickDelay()` (R216). -/
def State.tickDelay (s : State) : State := { s with DT := timerTick s.DT }

/-- `TickSound()` (R217). -/
def State.tickSound (s : State) : State := { s with ST := timerTick s.ST }

/-- `ReadDisplay()` (R254): the 2048 pixels. -/
def State.pixels (s : State) : List Bool := (List.range 2048).map fun p => Display.pixel s.disp p

/-- `SoundActive()` (R255). -/
def State.soundActive (s : State) : Bool := s.ST != 0

/-- A bound a memory dump accepts, in [0, 4096] (R257). -/
def dumpBound (b : Int) : Bool := decide (0 ≤ b ∧ b ≤ 4096)

/-- `DumpMemory(start, stop)` (R257): half-open; a bound out of range raises DUMP_RANGE, but never over a latch that is
already set. -/
def State.dumpMemory (s : State) (start stop : Int) : State × Response :=
  if dumpBound start && dumpBound stop then
    (s, .bytes (Memory.readBytes s.mem start.toNat (stop.toNat - start.toNat)))
  else
    match s.fault with
    | some _ => (s, .bytes [])
    | none => (s.latch .dumpRange none (.bounds start stop), .dumpFault)

/-- `Step()` as a transaction (R251). -/
def State.hostStep (s : State) : State × Response :=
  match Machine.step s, stepRecord s with
  | .next s', some r => (s', .stepped r)
  | _, _ => (s, .unmodelled)

/-- The effect and the answer of one transaction. -/
def transact (t : Transaction) (s : State) : State × Response :=
  match t with
  | .reset => (s.afterReset, .done)
  | .loadProgram bytes => s.loadProgram bytes
  | .step => s.hostStep
  | .setKey k down => s.setKey k down
  | .tickDelay => unlessHalted s s.tickDelay
  | .tickSound => unlessHalted s s.tickSound
  | .tickTimers => unlessHalted s s.tickDelay.tickSound
  | .readDisplay => (s, .display s.pixels)
  | .soundActive => (s, .sound s.soundActive)
  | .readStatus => (s, .status s.fault)
  | .dumpMemory start stop => s.dumpMemory start stop

/-- A run: the host's transactions in their total order (R61). -/
def runTransactions : List Transaction → State → State
  | [], s => s
  | t :: ts, s => runTransactions ts (transact t s).1

end Sys2Proof.Machine
end

