-- ==== Sys2Proof/Safety.lean ====
section
/-! DEFINITION. Safety.lean: what counts as a good state and a safe run, in the terms claims use. -/

namespace Sys2Proof.Machine

/-- No fault is latched: the engine can take a step (R109, R110). -/
abbrev State.running (s : State) : Prop := s.fault = none

/-- Nothing is listed below 0x200: no component other than setup ever writes there (R51, R58). -/
abbrev State.lowMemoryIntact (s : State) : Prop := ∀ c ∈ s.mem, 0x200 ≤ c.1

/-- Every return address in use is the address of a CALL that was fetched, so it lies in 0x200 to 0xFFE (R101,
R142). -/
abbrev State.returnsFetchable (s : State) : Prop :=
  ∀ k : Fin 16, k.val < s.sp.val → 0x200 ≤ (s.stack[k.val]).toNat ∧ (s.stack[k.val]).toNat ≤ 0xFFE

/-- The latch records what its cause says (R231, R232): the pc where the engine stands, a word unless nothing was
fetched, and the cause's info. -/
def FaultRecord.coherent (f : FaultRecord) (s : State) : Bool :=
  f.pc == s.pc &&
  match f.cause, f.word, f.info with
  | .pcOutOfRange, none, .none => !s.fetchable
  | .illegalInstruction, some w, .none => !w.legal
  | .dumpRange, none, .bounds start stop => !(dumpBound start && dumpBound stop)
  | .stackOverflow, some _, .none => s.sp == 16
  | .stackUnderflow, some _, .none => s.sp == 0
  | .memOutOfRange, some _, .address a => decide (0x1000 ≤ a)
  | .lowMemoryWrite, some _, .address a => decide (a < 0x200)
  | .flagOperand, some w, .none => w.legal
  | .keyIndexRange, some w, .none => w.legal
  | _, _, _ => false

/-- The invariant of every run from reset. -/
structure State.Inv (s : State) : Prop where
  /-- memory is in its canonical form -/
  memory : Memory.wf s.mem
  /-- nothing below 0x200 was ever written -/
  low : s.lowMemoryIntact
  /-- the largest pc any instruction can leave is 0x10FE (R25) -/
  pc : s.pc.toNat ≤ 0x10FE
  /-- live return addresses are fetchable -/
  returns : s.returnsFetchable
  /-- a set latch is coherent -/
  latch : ∀ f, s.fault = some f → f.coherent s = true

/-- A set bit of the sprite DRW Vx, Vy, n draws targets pixel `p`: row r of the sprite is the byte at I + r, its column c
is bit 7 - c, and the target is `cx + c + (cy + r) * 64` (R121). -/
def State.spriteHits (s : State) (x y : Reg) (n : BitVec 4) (p : Nat) : Prop :=
  ∃ r c, r < n.toNat ∧ c < 8 ∧ (Memory.read s.mem (s.I.toNat + r)).getLsbD (7 - c) = true ∧
    p = (s.v[x.val]).toNat + c + ((s.v[y.val]).toNat + r) * 64

/-- The launch premise of a claim about a program (R272): the reset state with the image at 0x200. -/
def State.launched (image : List Byte) : State := (State.reset.loadProgram image).1

/-- A state some run of host transactions reaches from reset (R258). -/
def State.reachable (s : State) : Prop := ∃ ts, s = runTransactions ts State.reset

/-- A run in which no step and no dump faulted (R230). -/
def safeRun (ts : List Transaction) (s : State) : Prop := (runTransactions ts s).running

end Sys2Proof.Machine
end

