-- ==== Sys2Proof/Certificates/Slice0/Obligations.lean ====
section
/-! DEFINITION. Certificates/Slice0/Obligations.lean: the statements about the model. A per-instruction statement gives
the instruction's encoding (the word its rule names, read by the decoder), the WHOLE next state as a record update (so
that every field it does not name is unchanged, its frame) and the fault its rule names. Next states are written with
the spec's own formulas, not with the model's operations. "The spec's decision D<n>" marks a clause that the spec chose
itself (92_eei_decisions.md) and the source does not state. The opcode numbers in the decode clauses are those of the
spec's R81, which it takes from general knowledge (log 14); pc + 2 and pc + 4 wrap at 16 bits (R8, R9, log 31). -/

open Sys2Proof Sys2Proof.Machine

/-! ### Encoding -/

/-- Decoding an encoded instruction gives it back, for every instruction and every operand (30_encoding.md). -/
def Obligations.DecodeInvertsEncode : Prop := ∀ i : Instr, decode (encode i) = .ok i

/-- Encoding a decoded instruction gives the whole word back: no bit of a legal word is dropped, the ignored y field of
8XY6 and 8XYE among them (R81). That the syntax keeps that field is log 16. -/
def Obligations.EncodeInvertsDecode : Prop := ∀ (w : Word) (i : Instr), decode w = .ok i → encode i = w

/-- R80: the two-level decoder is the row search of R80 on every word, and at most one row matches a word. -/
def Obligations.DecodeIsTheRowSearch : Prop :=
  ∀ w : Word, (decode w).toOption = decodeByRows w ∧
    (opcodeRows.filter fun r => (w &&& r.mask) == r.pattern).length ≤ 1

/-- The decoder accepts exactly the words that are in none of the illegal sets listed in 30_encoding.md (the strictness
of families 0, 5 and 9 is the spec's decision D2, log 17). -/
def Obligations.DecoderAcceptsExactlyLegalWords : Prop :=
  ∀ w : Word, (∃ i, decode w = .ok i) ↔ Word.legal w = true

/-- Words written out from the patterns of R81 decode to their instructions, one or more of every family of R75, and two
words of no pattern are rejected (sanity; the opcode numbers are the spec's, from general knowledge, log 14). The two
rejected words rest on the spec's decision D2 (log 17), and that 4XNN and 5XY0 exist is from general knowledge (log
33). -/
def Obligations.SampleWordsDecode : Prop :=
  decode 0x00E0#16 = .ok .cls ∧ decode 0x00EE#16 = .ok .ret ∧ decode 0x1234#16 = .ok (.jpNnn 0x234) ∧
  decode 0x2345#16 = .ok (.callNnn 0x345) ∧ decode 0x3A42#16 = .ok (.seVxNn 10 0x42) ∧
  decode 0x4B17#16 = .ok (.sneVxNn 11 0x17) ∧ decode 0x5CD0#16 = .ok (.seVxVy 12 13) ∧
  decode 0x6E91#16 = .ok (.ldVxNn 14 0x91) ∧ decode 0x7F08#16 = .ok (.addVxNn 15 0x08) ∧
  decode 0x9AB0#16 = .ok (.sneVxVy 10 11) ∧ decode 0xA2F0#16 = .ok (.ldINnn 0x2F0) ∧
  decode 0xC73C#16 = .ok (.rndVxNn 7 0x3C) ∧
  decode 0x812E#16 = .ok (.shlVx 1 2) ∧ decode 0xBFED#16 = .ok (.jpV0Nnn 0xFED) ∧
  decode 0xD12F#16 = .ok (.drwVxVyN 1 2 15) ∧ decode 0xE5A1#16 = .ok (.sknpVx 5) ∧
  decode 0xF365#16 = .ok (.ldVxMem 3) ∧ decode 0x0123#16 = .error .family0 ∧ decode 0xF0FF#16 = .error .familyF

/-! ### The step -/

/-- A step with no fault latched and pc in 0x200 to 0xFFE runs `exec` of the instruction that the two bytes at pc, high
byte first, decode to (R100, R102, R103); the step adds nothing around it. That an odd pc fetches as an even one is the
spec's decision D26 (log 26). -/
def Obligations.StepRunsTheDecodedInstruction : Prop :=
  ∀ (s : State) (i : Instr), s.fault = none → 0x200 ≤ s.pc.toNat → s.pc.toNat ≤ 0xFFE →
    decode (Memory.read s.mem s.pc.toNat ++ Memory.read s.mem (s.pc.toNat + 1)) = .ok i → step s = exec i s

/-- Outside 0x200 to 0xFFE the step fetches nothing and latches PC_OUT_OF_RANGE with no word (pc = 0xFFF is the spec's
decision D13, the latch's fields D11 and D12; log 21, log 22). That a fault is a next state in which the latch alone
changes is D12 (log 8, log 21). -/
def Obligations.StepOutsideFetchRangeFaults : Prop :=
  ∀ s : State, s.fault = none → (s.pc.toNat < 0x200 ∨ 0xFFF ≤ s.pc.toNat) →
    step s = .next { s with fault := some ⟨.pcOutOfRange, s.pc, none, .none⟩ }

/-- A fetched word that the decoder rejects latches ILLEGAL_INSTRUCTION with the word and the pc and changes nothing
else (the latch is the spec's decision D11, D12; log 21). Which words are illegal in families 0, 5 and 9 is its D2 (log
17), and that an odd pc fetches its D26 (log 26). That a fault is a next state in which the latch alone changes is D12
(log 8, log 21), and the word it records log 9. -/
def Obligations.IllegalWordFaults : Prop :=
  ∀ (s : State) (w : Word), s.fault = none → 0x200 ≤ s.pc.toNat → s.pc.toNat ≤ 0xFFE →
    w = Memory.read s.mem s.pc.toNat ++ Memory.read s.mem (s.pc.toNat + 1) → Word.legal w = false →
    step s = .next { s with fault := some ⟨.illegalInstruction, s.pc, some w, .none⟩ }

/-- Every instruction answers a next state from every state: no form stops the machine from outside (R79, R110; a fault
is a next state with the latch set, log 8). -/
def Obligations.EveryInstructionAnswersNext : Prop :=
  ∀ (i : Instr) (s : State), ∃ t, exec i s = .next t

/-- Faults are precise (the spec's decision D12, log 21): a step that raises one changes the latch and nothing else; the
latch records the pc, and the fetched word unless nothing was fetched. That a fault is a next state is log 8, and the
word it records log 9. -/
def Obligations.FaultingStepWritesOnlyTheLatch : Prop :=
  ∀ (s t : State) (f : FaultRecord), s.fault = none → step s = .next t → t.fault = some f →
    t = { s with fault := some f } ∧ f.pc = s.pc ∧
    f.word = if f.cause = .pcOutOfRange then none
      else some (Memory.read s.mem s.pc.toNat ++ Memory.read s.mem (s.pc.toNat + 1))

/-- Which instructions can raise which cause, and what holds when they do (the table of 60_exceptions.md; causes 4 to 9
are the spec's decisions D3 to D8, log 13, log 18, log 19 and log 20, its codes D11, log 32). That a fault is a next
state is log 8. -/
def Obligations.EachCauseComesFromItsInstructions : Prop :=
  ∀ (i : Instr) (s t : State) (f : FaultRecord), s.fault = none → exec i s = .next t → t.fault = some f →
    (f.cause = .stackOverflow ∧ s.sp = 16 ∧ ∃ nnn, i = .callNnn nnn) ∨
    (f.cause = .stackUnderflow ∧ s.sp = 0 ∧ i = .ret) ∨
    (f.cause = .memOutOfRange ∧ (∃ a, f.info = .address a ∧ 0x1000 ≤ a) ∧
      ∃ x, (∃ y n, i = .drwVxVyN x y n) ∨ i = .ldBVx x ∨ i = .ldMemVx x ∨ i = .ldVxMem x) ∨
    (f.cause = .lowMemoryWrite ∧ (∃ a, f.info = .address a ∧ a < 0x200) ∧ ∃ x, i = .ldBVx x ∨ i = .ldMemVx x) ∨
    (f.cause = .flagOperand ∧
      ((∃ x y n, (i = .addVxVy x y ∨ i = .subVxVy x y ∨ i = .subnVxVy x y ∨ i = .drwVxVyN x y n) ∧
          (x = 15 ∨ y = 15)) ∨
        ∃ y, i = .shrVx 15 y ∨ i = .shlVx 15 y)) ∨
    (f.cause = .keyIndexRange ∧ ∃ x, 16 ≤ (s.v[x.val]).toNat ∧ (i = .skpVx x ∨ i = .sknpVx x))

/-- The record of a step (R108, its form the spec's) says what the step did: halted, faulted, waiting, which is FX0A
with no key down, or executed, which FX0A is only with a key down, with exactly the events the instruction emits (R240;
DroppedPixelsAreReported says which, dropping being D19, log 25). A halted step is D12, log 21. The record as a function
of the state before the step is the model's choice, log 10. That FX0A polls is the spec's resolution C9 (log 34). -/
def Obligations.StepRecordTellsWhatTheStepDid : Prop :=
  ∀ s : State, ∃ r t, stepRecord s = some r ∧ step s = .next t ∧
    match r with
    | .halted f => s.fault = some f ∧ t = s
    | .faulted c pc w => s.fault = none ∧ pc = s.pc ∧ ∃ info, t.fault = some ⟨c, pc, w, info⟩
    | .waiting pc w => s.fault = none ∧ t = s ∧ pc = s.pc ∧ w = s.fetchWord ∧
        (∃ x, decode w = .ok (.ldVxK x)) ∧ ∀ k : Fin 16, s.key[k.val] = false
    | .executed pc w events => s.fault = none ∧ t.fault = none ∧ pc = s.pc ∧ w = s.fetchWord ∧
        ∃ i, decode w = .ok i ∧ exec i s = .next t ∧ events = eventsOf i s ∧
          ((∀ x y n, i ≠ .drwVxVyN x y n) → events = []) ∧ ∀ x, i = .ldVxK x → ∃ k : Fin 16, s.key[k.val] = true

/-! ### Invariants and whole-machine rules -/

/-- The reset state meets the invariant. The canonical form of memory is the model's own (log 1). -/
def Obligations.ResetMeetsTheInvariant : Prop := State.reset.Inv

/-- Every step keeps the invariant: memory canonical and untouched below 0x200, pc at most 0x10FE (R25), live return
addresses fetchable, a set latch coherent with its cause. Faulting low writes are the spec's decision D6 (log 19), no
fetch at 0xFFF its D13 (log 22), and what the latch records its D11 and D12 (log 32, log 21). RET's plus 2 is its
resolution C7 (log 34), and the canonical form is the model's own (log 1). -/
def Obligations.StepKeepsTheInvariant : Prop :=
  ∀ s t : State, s.Inv → step s = .next t → t.Inv

/-- Every host transaction, steps and faulting dumps included, keeps the invariant. It rests on the spec's decisions D6,
D11, D12 and D13, as for a step, and D20, D21 and D24 (log 29). RET's plus 2 is its resolution C7 (log 34), and the
canonical form is the model's own (log 1). -/
def Obligations.TransactionsKeepTheInvariant : Prop :=
  ∀ (tr : Transaction) (s : State), s.Inv → (transact tr s).1.Inv

/-- No transaction but reset, the step among them, changes a byte below 0x200, from any state ("no component other than
setup ever writes below 0x200"; that an instruction's write there faults is the spec's decision D6, log 19). -/
def Obligations.OnlyResetWritesLowMemory : Prop :=
  ∀ (tr : Transaction) (s : State) (a : Nat), tr ≠ .reset → a < 0x200 →
    Memory.read (transact tr s).1.mem a = Memory.read s.mem a

/-- With the latch set, no transaction but reset changes anything, and a step reports HALTED (the spec's decisions D12
and D24, log 21, log 29). -/
def Obligations.HaltedBlockIsFrozen : Prop :=
  ∀ (tr : Transaction) (s : State) (f : FaultRecord), s.fault = some f → tr ≠ .reset →
    (transact tr s).1 = s ∧ (transact .step s).2 = .stepped (.halted f)

/-- Only 00E0, which clears, and DXYN write the display, and the host's read of it changes nothing (10_state.md). Which
pixels DXYN changes is the index formula of 41_display.md: a column past 63 falls in the next row (the spec's resolution
C3, log 25) and a target past 2047 is dropped (its decision D19, log 25). With n = 0 DXYN changes none (C4, log 34). -/
def Obligations.OnlyClearAndDrawWriteTheDisplay : Prop :=
  (∀ (i : Instr) (s t : State), exec i s = .next t → t.disp ≠ s.disp →
    (i = .cls ∧ ∀ p < 2048, Display.pixel t.disp p = false) ∨
      ∃ x y n, i = .drwVxVyN x y n ∧
        ∀ p < 2048, Display.pixel t.disp p ≠ Display.pixel s.disp p ↔ s.spriteHits x y n p) ∧
  ∀ s : State, (transact .readDisplay s).1 = s

/-- Only 2NNN writes a stack entry, only 2NNN and 00EE move sp (10_state.md; that a pop keeps its entry is the spec's
decision D25, log 18). -/
def Obligations.OnlyCallAndReturnTouchTheStack : Prop :=
  ∀ (i : Instr) (s t : State), exec i s = .next t →
    (t.stack ≠ s.stack → ∃ nnn, i = .callNnn nnn) ∧
    (t.sp ≠ s.sp → i = .ret ∨ ∃ nnn, i = .callNnn nnn)

/-- Only ANNN, FX1E and FX29 write I, only FX15 writes DT, only FX18 writes ST, only FX33 and FX55 write memory, and no
instruction writes the key latch (10_state.md, 20_memory.md; I kept by DXYN, FX33, FX55 and FX65 is the spec's
decision D15, log 23). -/
def Obligations.WritersOfIndexTimersMemoryAndKeys : Prop :=
  ∀ (i : Instr) (s t : State), exec i s = .next t →
    (t.I ≠ s.I → (∃ nnn, i = .ldINnn nnn) ∨ ∃ x, i = .addIVx x ∨ i = .ldFVx x) ∧
    (t.DT ≠ s.DT → ∃ x, i = .ldDtVx x) ∧ (t.ST ≠ s.ST → ∃ x, i = .ldStVx x) ∧
    (t.mem ≠ s.mem → ∃ x, i = .ldBVx x ∨ i = .ldMemVx x) ∧ t.key = s.key

/-- VF changes only under the six flag-writing instructions, under an instruction whose destination is V15, or when FX65
loads it (10_state.md). That FX1E does not write it is the spec's decision D16 (log 24), and that FX65 loads V0 to V[x],
x the field, is D28 (log 27). -/
def Obligations.WritersOfTheFlagRegister : Prop :=
  ∀ (i : Instr) (s t : State), exec i s = .next t → t.v[15] ≠ s.v[15] →
    (∃ x y n, i = .addVxVy x y ∨ i = .subVxVy x y ∨ i = .shrVx x y ∨ i = .subnVxVy x y ∨ i = .shlVx x y ∨
      i = .drwVxVyN x y n) ∨
    (∃ y nn, i = .ldVxNn 15 nn ∨ i = .addVxNn 15 nn ∨ i = .ldVxVy 15 y ∨ i = .orVxVy 15 y ∨ i = .andVxVy 15 y ∨
      i = .xorVxVy 15 y ∨ i = .rndVxNn 15 nn ∨ i = .ldVxDt 15 ∨ i = .ldVxK 15) ∨
    i = .ldVxMem 15

/-- No instruction reads ST: from states that differ in ST alone, every instruction ends in states that differ in ST at
most (10_state.md). The two runs draw the same free values, since they have the same count of draws: for CXNN and FX0A
(D10, D9) it holds for the same draws, the model's choice, log 3, log 4, log 5. -/
def Obligations.NoInstructionReadsTheSoundTimer : Prop :=
  ∀ (i : Instr) (s t : State) (b : Byte), exec i s = .next t →
    ∃ u, exec i { s with ST := b } = .next u ∧ { u with ST := t.ST } = t

/-- Two canonical memories that read alike are the same list (the model's own representation, log 1). -/
def Obligations.CanonicalMemoryIsUnique : Prop :=
  ∀ m m' : List Host.Cell, Memory.wf m → Memory.wf m' →
    (∀ a, a < 0x1000 → Memory.read m a = Memory.read m' a) → m = m'

/-! ### Display -/

/-- R120: CLS turns every pixel off and changes nothing else but pc. -/
def Obligations.ClsClearsEveryPixel : Prop :=
  decode 0x00E0#16 = .ok .cls ∧
  ∀ s : State, ∃ t, exec .cls s = .next t ∧ (∀ p, p < 2048 → Display.pixel t.disp p = false) ∧
    t = { s with disp := t.disp, pc := s.pc + 2 }

/-- DRW flips exactly the in-buffer pixels that a set sprite bit targets and sets VF to 1 exactly when one of them was
on; every other register, memory and I are unchanged (41_display.md; where it faults is the next statement). That it
completes and drops targets past 2047 is the spec's decision D19, that a column past 63 falls in the next row its
resolution C3 (log 25), that n = 0 draws nothing and clears VF its resolution C4 (log 34), and that I is kept D15
(log 23). -/
def Obligations.DrawFlipsTheTargetedPixels : Prop :=
  ∀ (x y : Reg) (n : BitVec 4) (s : State),
    decode (0xD#4 ++ x.bits ++ y.bits ++ n) = .ok (.drwVxVyN x y n) ∧
    (x ≠ 15 → y ≠ 15 → (n = 0 ∨ s.I.toNat + n.toNat ≤ 0x1000) →
      ∃ t, exec (.drwVxVyN x y n) s = .next t ∧
        t = { s with v := s.v.set 15 t.v[15], disp := t.disp, pc := s.pc + 2 } ∧
        (∀ p, p < 2048 →
          (s.spriteHits x y n p → Display.pixel t.disp p = !Display.pixel s.disp p) ∧
          (¬ s.spriteHits x y n p → Display.pixel t.disp p = Display.pixel s.disp p)) ∧
        ((∃ p, p < 2048 ∧ s.spriteHits x y n p ∧ Display.pixel s.disp p = true) → t.v[15] = 1) ∧
        ((¬ ∃ p, p < 2048 ∧ s.spriteHits x y n p ∧ Display.pixel s.disp p = true) → t.v[15] = 0))

/-- Where DRW faults: VF named as an operand, before any memory check (the spec's decision D7, log 13), else a sprite
row at 0x1000 or above, recording the first such address (D5, log 19). Nothing but the latch changes. That a fault is a
next state in which the latch alone changes is D12 (log 8, log 21), and the word it records log 9. -/
def Obligations.DrawFaults : Prop :=
  ∀ (x y : Reg) (n : BitVec 4) (s : State),
    ((x = 15 ∨ y = 15) → exec (.drwVxVyN x y n) s =
      .next { s with fault := some ⟨.flagOperand, s.pc, some (0xD#4 ++ x.bits ++ y.bits ++ n), .none⟩ }) ∧
    (x ≠ 15 → y ≠ 15 → n ≠ 0 → 0x1000 < s.I.toNat + n.toNat → exec (.drwVxVyN x y n) s =
      .next { s with fault := some ⟨.memOutOfRange, s.pc, some (0xD#4 ++ x.bits ++ y.bits ++ n),
        .address (max s.I.toNat 0x1000)⟩ })

/-- Drawing a sprite twice at the same place restores the display, and the second draw reports a collision exactly when
the first draw turned at least one pixel of the buffer on (the property W5 of 95_test_vectors.md). It covers n = 0 (the
spec's resolution C4, log 34), columns past 63 (C3, log 25) and targets outside the buffer, which are dropped and never
collide (the spec's decision D19, log 25). The second draw reads the same I (R194 with its decision D15, log 23). -/
def Obligations.DrawTwiceRestoresTheDisplay : Prop :=
  ∀ (x y : Reg) (n : BitVec 4) (s : State), x ≠ 15 → y ≠ 15 → (n = 0 ∨ s.I.toNat + n.toNat ≤ 0x1000) →
    ∃ t u, exec (.drwVxVyN x y n) s = .next t ∧ exec (.drwVxVyN x y n) t = .next u ∧ u.disp = s.disp ∧
      ((∃ p, p < 2048 ∧ s.spriteHits x y n p ∧ Display.pixel s.disp p = false) → u.v[15] = 1) ∧
      ((¬ ∃ p, p < 2048 ∧ s.spriteHits x y n p ∧ Display.pixel s.disp p = false) → u.v[15] = 0)

/-- DRW's events are exactly the targets outside the buffer, each at most 17478 (41_display.md; dropping them is the
spec's decision D19, and a column past 63 having an index in the next row its resolution C3, log 25). With n = 0 there
is none (C4, log 34). The events as a function of the state before the step are the model's choice, log 10. -/
def Obligations.DroppedPixelsAreReported : Prop :=
  ∀ (x y : Reg) (n : BitVec 4) (s : State) (p : Nat),
    (Event.pixelDropped p ∈ eventsOf (.drwVxVyN x y n) s ↔ s.spriteHits x y n p ∧ 2048 ≤ p) ∧
    (Event.pixelDropped p ∈ eventsOf (.drwVxVyN x y n) s → p ≤ 17478)

/-! ### Control transfer -/

/-- RET goes to the popped address plus 2, once (the spec's resolution C7, log 34), and pops without clearing the entry
(D25); at sp = 0 it latches STACK_UNDERFLOW (the spec's decision D4, log 18). That a fault is a next state in which the
latch alone changes is D12 (log 8, log 21), and the word it records log 9. -/
def Obligations.RetPopsAndResumes : Prop :=
  decode 0x00EE#16 = .ok .ret ∧
  ∀ s : State,
    (∀ h : 0 < s.sp.val, exec .ret s =
      .next { s with pc := s.stack[s.sp.val - 1] + 2, sp := ⟨s.sp.val - 1, by omega⟩ }) ∧
    (s.sp = 0 → exec .ret s = .next { s with fault := some ⟨.stackUnderflow, s.pc, some 0x00EE#16, .none⟩ })

/-- R141: JP nnn sets pc to nnn; a target below 0x200 or at 0xFFF makes the NEXT step fault (0xFFF is the spec's
decision D13, log 22; what the latch records is D11, log 32). That a fault is a next state in which the latch alone
changes is D12 (log 8, log 21). -/
def Obligations.JumpSetsPc : Prop :=
  ∀ (nnn : BitVec 12) (s : State),
    decode (0x1#4 ++ nnn) = .ok (.jpNnn nnn) ∧
    exec (.jpNnn nnn) s = .next { s with pc := 0x0#4 ++ nnn } ∧
    (s.fault = none → (nnn.toNat < 0x200 ∨ nnn.toNat = 0xFFF) →
      step { s with pc := 0x0#4 ++ nnn } =
        .next { s with pc := 0x0#4 ++ nnn, fault := some ⟨.pcOutOfRange, 0x0#4 ++ nnn, none, .none⟩ })

/-- CALL nnn pushes its own address and jumps; at sp = 16 it latches STACK_OVERFLOW (the spec's decision D3, log 18).
That a fault is a next state in which the latch alone changes is D12 (log 8, log 21), and the word it records log 9. -/
def Obligations.CallPushesAndJumps : Prop :=
  ∀ (nnn : BitVec 12) (s : State),
    decode (0x2#4 ++ nnn) = .ok (.callNnn nnn) ∧
    (∀ h : s.sp.val < 16, exec (.callNnn nnn) s =
      .next { s with stack := s.stack.set s.sp.val s.pc, sp := ⟨s.sp.val + 1, by omega⟩, pc := 0x0#4 ++ nnn }) ∧
    (s.sp = 16 → exec (.callNnn nnn) s =
      .next { s with fault := some ⟨.stackOverflow, s.pc, some (0x2#4 ++ nnn), .none⟩ })

/-- R143: SE Vx, nn skips one word when Vx = nn. -/
def Obligations.SkipIfEqualImmediate : Prop :=
  ∀ (x : Reg) (nn : Byte) (s : State),
    decode (0x3#4 ++ x.bits ++ nn) = .ok (.seVxNn x nn) ∧
    exec (.seVxNn x nn) s = .next { s with pc := if s.v[x.val] = nn then s.pc + 4 else s.pc + 2 }

/-- SNE Vx, nn; SE Vx, Vy; SNE Vx, Vy (42_control_transfer.md; the first two are from general knowledge there, log 33).
5XYN and 9XYN with n not 0 are no instruction (the spec's decision D2, log 17). -/
def Obligations.OtherSkips : Prop :=
  ∀ (x y : Reg) (nn : Byte) (n : BitVec 4) (s : State),
    decode (0x4#4 ++ x.bits ++ nn) = .ok (.sneVxNn x nn) ∧
    exec (.sneVxNn x nn) s = .next { s with pc := if s.v[x.val] = nn then s.pc + 2 else s.pc + 4 } ∧
    decode (0x5#4 ++ x.bits ++ y.bits ++ 0x0#4) = .ok (.seVxVy x y) ∧
    exec (.seVxVy x y) s = .next { s with pc := if s.v[x.val] = s.v[y.val] then s.pc + 4 else s.pc + 2 } ∧
    decode (0x9#4 ++ x.bits ++ y.bits ++ 0x0#4) = .ok (.sneVxVy x y) ∧
    exec (.sneVxVy x y) s = .next { s with pc := if s.v[x.val] = s.v[y.val] then s.pc + 2 else s.pc + 4 } ∧
    (n ≠ 0 → decode (0x5#4 ++ x.bits ++ y.bits ++ n) = .error .family5 ∧
      decode (0x9#4 ++ x.bits ++ y.bits ++ n) = .error .family9)

/-- R147: JP V0, nnn goes to the exact sum nnn + V0; an unfetchable target makes the NEXT step fault (0xFFF is the
spec's decision D13, log 22; what the latch records is D11, log 32). That a fault is a next state in which the latch
alone changes is D12 (log 8, log 21). -/
def Obligations.JumpPlusV0 : Prop :=
  ∀ (nnn : BitVec 12) (s : State),
    decode (0xB#4 ++ nnn) = .ok (.jpV0Nnn nnn) ∧
    ∃ t, exec (.jpV0Nnn nnn) s = .next t ∧ t.pc.toNat = nnn.toNat + (s.v[0]).toNat ∧ t = { s with pc := t.pc } ∧
      (s.fault = none → (t.pc.toNat < 0x200 ∨ 0xFFE < t.pc.toNat) →
        step t = .next { t with fault := some ⟨.pcOutOfRange, t.pc, none, .none⟩ })

/-! ### Arithmetic and logic -/

/-- R160: LD Vx, nn, every register included. -/
def Obligations.LoadImmediate : Prop :=
  ∀ (x : Reg) (nn : Byte) (s : State),
    decode (0x6#4 ++ x.bits ++ nn) = .ok (.ldVxNn x nn) ∧
    exec (.ldVxNn x nn) s = .next { s with v := s.v.set x.val nn, pc := s.pc + 2 }

/-- R161: ADD Vx, nn is modulo 256 and writes no flag. -/
def Obligations.AddImmediate : Prop :=
  ∀ (x : Reg) (nn : Byte) (s : State),
    decode (0x7#4 ++ x.bits ++ nn) = .ok (.addVxNn x nn) ∧
    exec (.addVxNn x nn) s =
      .next { s with v := s.v.set x.val (BitVec.ofNat 8 ((s.v[x.val]).toNat + nn.toNat)), pc := s.pc + 2 }

/-- R162, R163, R164, R165: copy, OR, AND and XOR, with no flag. -/
def Obligations.CopyAndLogic : Prop :=
  ∀ (x y : Reg) (s : State),
    decode (0x8#4 ++ x.bits ++ y.bits ++ 0x0#4) = .ok (.ldVxVy x y) ∧
    exec (.ldVxVy x y) s = .next { s with v := s.v.set x.val s.v[y.val], pc := s.pc + 2 } ∧
    decode (0x8#4 ++ x.bits ++ y.bits ++ 0x1#4) = .ok (.orVxVy x y) ∧
    exec (.orVxVy x y) s = .next { s with v := s.v.set x.val (s.v[x.val] ||| s.v[y.val]), pc := s.pc + 2 } ∧
    decode (0x8#4 ++ x.bits ++ y.bits ++ 0x2#4) = .ok (.andVxVy x y) ∧
    exec (.andVxVy x y) s = .next { s with v := s.v.set x.val (s.v[x.val] &&& s.v[y.val]), pc := s.pc + 2 } ∧
    decode (0x8#4 ++ x.bits ++ y.bits ++ 0x3#4) = .ok (.xorVxVy x y) ∧
    exec (.xorVxVy x y) s = .next { s with v := s.v.set x.val (s.v[x.val] ^^^ s.v[y.val]), pc := s.pc + 2 }

/-- ADD Vx, Vy: the sum modulo 256, VF = 1 exactly when the sum exceeds 255; VF as an operand latches FLAG_OPERAND (the
spec's decision D7, log 13). That a fault is a next state in which the latch alone changes is D12 (log 8, log 21), and
the word it records log 9. -/
def Obligations.AddWithCarry : Prop :=
  ∀ (x y : Reg) (s : State),
    decode (0x8#4 ++ x.bits ++ y.bits ++ 0x4#4) = .ok (.addVxVy x y) ∧
    (x ≠ 15 → y ≠ 15 → exec (.addVxVy x y) s =
      .next { s with
        v := (s.v.set x.val (BitVec.ofNat 8 ((s.v[x.val]).toNat + (s.v[y.val]).toNat))).set 15
          (if 255 < (s.v[x.val]).toNat + (s.v[y.val]).toNat then 1 else 0)
        pc := s.pc + 2 }) ∧
    ((x = 15 ∨ y = 15) → exec (.addVxVy x y) s =
      .next { s with fault := some ⟨.flagOperand, s.pc, some (0x8#4 ++ x.bits ++ y.bits ++ 0x4#4), .none⟩ })

/-- SUB Vx, Vy: Vx - Vy modulo 256, VF = 1 exactly when Vx > Vy, strictly (C1, log 28); VF as an operand latches
FLAG_OPERAND (D7, log 13). That a fault is a next state in which the latch alone changes is D12 (log 8, log 21), and the
word it records log 9. -/
def Obligations.SubtractStrictFlag : Prop :=
  ∀ (x y : Reg) (s : State),
    decode (0x8#4 ++ x.bits ++ y.bits ++ 0x5#4) = .ok (.subVxVy x y) ∧
    (x ≠ 15 → y ≠ 15 → exec (.subVxVy x y) s =
      .next { s with
        v := (s.v.set x.val (BitVec.ofNat 8 ((s.v[x.val]).toNat + 256 - (s.v[y.val]).toNat))).set 15
          (if (s.v[y.val]).toNat < (s.v[x.val]).toNat then 1 else 0)
        pc := s.pc + 2 }) ∧
    ((x = 15 ∨ y = 15) → exec (.subVxVy x y) s =
      .next { s with fault := some ⟨.flagOperand, s.pc, some (0x8#4 ++ x.bits ++ y.bits ++ 0x5#4), .none⟩ })

/-- SUBN Vx, Vy: Vy - Vx modulo 256, VF = 1 exactly when Vx < Vy, strictly (C1, log 28); VF as an operand latches
FLAG_OPERAND (D7, log 13). That a fault is a next state in which the latch alone changes is D12 (log 8, log 21), and the
word it records log 9. -/
def Obligations.ReverseSubtractStrictFlag : Prop :=
  ∀ (x y : Reg) (s : State),
    decode (0x8#4 ++ x.bits ++ y.bits ++ 0x7#4) = .ok (.subnVxVy x y) ∧
    (x ≠ 15 → y ≠ 15 → exec (.subnVxVy x y) s =
      .next { s with
        v := (s.v.set x.val (BitVec.ofNat 8 ((s.v[y.val]).toNat + 256 - (s.v[x.val]).toNat))).set 15
          (if (s.v[x.val]).toNat < (s.v[y.val]).toNat then 1 else 0)
        pc := s.pc + 2 }) ∧
    ((x = 15 ∨ y = 15) → exec (.subnVxVy x y) s =
      .next { s with fault := some ⟨.flagOperand, s.pc, some (0x8#4 ++ x.bits ++ y.bits ++ 0x7#4), .none⟩ })

/-- SHR Vx: Vx / 2, VF = bit 0 of the old Vx, whatever the ignored y is; x = 15 latches FLAG_OPERAND (D7, log 13). That
the syntax keeps y is log 16. That a fault is a next state in which the latch alone changes is D12 (log 8, log 21), and
the word it records log 9. -/
def Obligations.ShiftRight : Prop :=
  ∀ (x y : Reg) (s : State),
    decode (0x8#4 ++ x.bits ++ y.bits ++ 0x6#4) = .ok (.shrVx x y) ∧
    (x ≠ 15 → exec (.shrVx x y) s =
      .next { s with
        v := (s.v.set x.val (BitVec.ofNat 8 ((s.v[x.val]).toNat / 2))).set 15
          (BitVec.ofNat 8 ((s.v[x.val]).toNat % 2))
        pc := s.pc + 2 }) ∧
    (x = 15 → exec (.shrVx x y) s =
      .next { s with fault := some ⟨.flagOperand, s.pc, some (0x8#4 ++ x.bits ++ y.bits ++ 0x6#4), .none⟩ })

/-- SHL Vx: Vx * 2 modulo 256, VF = bit 7 of the old Vx, whatever the ignored y is; x = 15 latches FLAG_OPERAND (D7, log
13). That the syntax keeps y is log 16. That a fault is a next state in which the latch alone changes is D12 (log 8, log
21), and the word it records log 9. -/
def Obligations.ShiftLeft : Prop :=
  ∀ (x y : Reg) (s : State),
    decode (0x8#4 ++ x.bits ++ y.bits ++ 0xE#4) = .ok (.shlVx x y) ∧
    (x ≠ 15 → exec (.shlVx x y) s =
      .next { s with
        v := (s.v.set x.val (BitVec.ofNat 8 ((s.v[x.val]).toNat * 2))).set 15
          (BitVec.ofNat 8 ((s.v[x.val]).toNat / 128))
        pc := s.pc + 2 }) ∧
    (x = 15 → exec (.shlVx x y) s =
      .next { s with fault := some ⟨.flagOperand, s.pc, some (0x8#4 ++ x.bits ++ y.bits ++ 0xE#4), .none⟩ })

/-- RND Vx, nn writes some byte masked by nn, whatever the free byte is (the spec's decision D10, log 3), and counts the
draw (the model's own field, log 5). -/
def Obligations.RandomByteIsMasked : Prop :=
  ∀ (x : Reg) (nn : Byte) (s : State),
    decode (0xC#4 ++ x.bits ++ nn) = .ok (.rndVxNn x nn) ∧
    exec (.rndVxNn x nn) s =
      .next { s with v := s.v.set x.val (Config.randomByte s.draws &&& nn), pc := s.pc + 2, draws := s.draws + 1 }

/-! ### Index register and memory -/

/-- R190, R192: LD I, nnn, and LD F, Vx with I = Vx * 5 exactly, Vx unmasked. -/
def Obligations.LoadIndexAndGlyphAddress : Prop :=
  ∀ (nnn : BitVec 12) (x : Reg) (s : State),
    decode (0xA#4 ++ nnn) = .ok (.ldINnn nnn) ∧
    exec (.ldINnn nnn) s = .next { s with I := 0x0#4 ++ nnn, pc := s.pc + 2 } ∧
    decode (0xF#4 ++ x.bits ++ 0x29#8) = .ok (.ldFVx x) ∧
    ∃ t, exec (.ldFVx x) s = .next t ∧ t.I.toNat = (s.v[x.val]).toNat * 5 ∧
      t = { s with I := t.I, pc := s.pc + 2 }

/-- ADD I, Vx is modulo 2^16 and leaves VF (the spec's decision D16, log 24). -/
def Obligations.AddToIndex : Prop :=
  ∀ (x : Reg) (s : State),
    decode (0xF#4 ++ x.bits ++ 0x1E#8) = .ok (.addIVx x) ∧
    exec (.addIVx x) s =
      .next { s with I := BitVec.ofNat 16 (s.I.toNat + (s.v[x.val]).toNat), pc := s.pc + 2 }

/-- LD B, Vx stores the three decimal digits at I, I + 1, I + 2 and changes no other byte, register or I (I kept is R194
with the spec's decision D15, log 23). The premise Memory.wf is the model's own (log 1). -/
def Obligations.StoreDecimalDigits : Prop :=
  ∀ (x : Reg) (s : State),
    decode (0xF#4 ++ x.bits ++ 0x33#8) = .ok (.ldBVx x) ∧
    (Memory.wf s.mem → 0x200 ≤ s.I.toNat → s.I.toNat + 2 < 0x1000 →
      ∃ t, exec (.ldBVx x) s = .next t ∧ t = { s with mem := t.mem, pc := s.pc + 2 } ∧
        (Memory.read t.mem (effectiveAddress s.I 0)).toNat = (s.v[x.val]).toNat / 100 ∧
        (Memory.read t.mem (effectiveAddress s.I 1)).toNat = (s.v[x.val]).toNat / 10 % 10 ∧
        (Memory.read t.mem (effectiveAddress s.I 2)).toNat = (s.v[x.val]).toNat % 10 ∧
        ∀ a, (a < effectiveAddress s.I 0 ∨ effectiveAddress s.I 2 < a) → Memory.read t.mem a = Memory.read s.mem a)

/-- LD [I], Vx stores V0 to Vx at I to I + x and changes no other byte, register or I (x is the field, the spec's
decision D28, log 27; I kept is its decision D15, log 23). The premise Memory.wf is the model's own (log 1). -/
def Obligations.StoreRegisters : Prop :=
  ∀ (x : Reg) (s : State),
    decode (0xF#4 ++ x.bits ++ 0x55#8) = .ok (.ldMemVx x) ∧
    (Memory.wf s.mem → 0x200 ≤ s.I.toNat → s.I.toNat + x.val < 0x1000 →
      ∃ t, exec (.ldMemVx x) s = .next t ∧ t = { s with mem := t.mem, pc := s.pc + 2 } ∧
        (∀ k : Reg, k ≤ x → Memory.read t.mem (effectiveAddress s.I k.val) = s.v[k.val]) ∧
        ∀ a, (a < effectiveAddress s.I 0 ∨ effectiveAddress s.I x.val < a) →
          Memory.read t.mem a = Memory.read s.mem a)

/-- Where the two stores fault: I below 0x200 latches LOW_MEMORY_WRITE with I (the spec's decision D6), a last address
at 0x1000 or above latches MEM_OUT_OF_RANGE with the first such address (D5); nothing but the latch changes (log 19).
The last address of FX55 is I + x with x the field (its decision D28, log 27). That a fault is a next state in which the
latch alone changes is D12 (log 8, log 21), and the word it records log 9. -/
def Obligations.StoresFaultBeforeWriting : Prop :=
  ∀ (x : Reg) (s : State),
    (s.I.toNat < 0x200 →
      exec (.ldBVx x) s =
        .next { s with
          fault := some ⟨.lowMemoryWrite, s.pc, some (0xF#4 ++ x.bits ++ 0x33#8), .address s.I.toNat⟩ } ∧
      exec (.ldMemVx x) s =
        .next { s with
          fault := some ⟨.lowMemoryWrite, s.pc, some (0xF#4 ++ x.bits ++ 0x55#8), .address s.I.toNat⟩ }) ∧
    (0x1000 ≤ s.I.toNat + 2 → exec (.ldBVx x) s =
      .next { s with
          fault := some ⟨.memOutOfRange, s.pc, some (0xF#4 ++ x.bits ++ 0x33#8), .address (max s.I.toNat 0x1000)⟩ }) ∧
    (0x1000 ≤ s.I.toNat + x.val → exec (.ldMemVx x) s =
      .next { s with
          fault := some ⟨.memOutOfRange, s.pc, some (0xF#4 ++ x.bits ++ 0x55#8), .address (max s.I.toNat 0x1000)⟩ })

/-- LD Vx, [I] loads V0 to Vx from I to I + x, leaves the registers above x, memory and I; a last address at 0x1000 or
above latches MEM_OUT_OF_RANGE and loads nothing (the spec's decisions D5, log 19; I kept is D15, log 23; x is the
field, D28, log 27). That a fault is a next state in which the latch alone changes is D12 (log 8, log 21), and the word
it records log 9. -/
def Obligations.LoadRegisters : Prop :=
  ∀ (x : Reg) (s : State),
    decode (0xF#4 ++ x.bits ++ 0x65#8) = .ok (.ldVxMem x) ∧
    (s.I.toNat + x.val < 0x1000 →
      ∃ t, exec (.ldVxMem x) s = .next t ∧ t = { s with v := t.v, pc := s.pc + 2 } ∧
        ∀ k : Reg, t.v[k.val] = if k ≤ x then Memory.read s.mem (s.I.toNat + k.val) else s.v[k.val]) ∧
    (0x1000 ≤ s.I.toNat + x.val → exec (.ldVxMem x) s =
      .next { s with
          fault := some ⟨.memOutOfRange, s.pc, some (0xF#4 ++ x.bits ++ 0x65#8), .address (max s.I.toNat 0x1000)⟩ })

/-- A register dump followed by a load through the same memory and I restores V0 to Vx on any register file (the
property W6 of 95_test_vectors.md). The index of the load is I as FX55 leaves it (the spec's decision D15, log 23), and
Vx is the register of the field x (D28, log 27). The premise Memory.wf is the model's own (log 1). -/
def Obligations.DumpThenLoadRestoresRegisters : Prop :=
  ∀ (x : Reg) (s : State), Memory.wf s.mem → 0x200 ≤ s.I.toNat → s.I.toNat + x.val < 0x1000 →
    ∃ t, exec (.ldMemVx x) s = .next t ∧
      ∀ u : State, u.mem = t.mem → u.I = t.I →
        ∃ w, exec (.ldVxMem x) u = .next w ∧ ∀ k : Reg, k ≤ x → w.v[k.val] = s.v[k.val]

/-- Fetch is coherent with stores: when FX55 stores bytes where the next step fetches, the next step runs the
instruction they spell (20_memory.md, derived there; the bytes stored are V0 to V[x], x the field, the spec's decision
D28, log 27). The premise Memory.wf is the model's own (log 1). That an odd pc fetches is the spec's decision D26 (log
26). -/
def Obligations.StoredBytesAreFetchedNext : Prop :=
  ∀ (x k : Reg) (i : Instr) (s : State), Memory.wf s.mem → s.fault = none → 0x200 ≤ s.I.toNat →
    s.I.toNat + x.val < 0x1000 → (h : k.val < x.val) → (s.pc + 2).toNat = s.I.toNat + k.val →
    decode (s.v[k.val] ++ s.v[k.val + 1]'(Nat.lt_of_le_of_lt h x.isLt)) = .ok i →
    ∃ t, exec (.ldMemVx x) s = .next t ∧ step t = exec i t

/-! ### Keys and timers -/

/-- SKP and SKNP skip on the key that Vx numbers; at 16 or above they latch KEY_INDEX_RANGE (the spec's decision D8, log
20). That a fault is a next state in which the latch alone changes is D12 (log 8, log 21), and the word it records log
9. -/
def Obligations.KeySkips : Prop :=
  ∀ (x : Reg) (s : State),
    decode (0xE#4 ++ x.bits ++ 0x9E#8) = .ok (.skpVx x) ∧ decode (0xE#4 ++ x.bits ++ 0xA1#8) = .ok (.sknpVx x) ∧
    (∀ h : (s.v[x.val]).toNat < 16,
      exec (.skpVx x) s = .next { s with pc := if s.key[(s.v[x.val]).toNat] = true then s.pc + 4 else s.pc + 2 } ∧
      exec (.sknpVx x) s = .next { s with pc := if s.key[(s.v[x.val]).toNat] = true then s.pc + 2 else s.pc + 4 }) ∧
    (16 ≤ (s.v[x.val]).toNat →
      exec (.skpVx x) s =
        .next { s with fault := some ⟨.keyIndexRange, s.pc, some (0xE#4 ++ x.bits ++ 0x9E#8), .none⟩ } ∧
      exec (.sknpVx x) s =
        .next { s with fault := some ⟨.keyIndexRange, s.pc, some (0xE#4 ++ x.bits ++ 0xA1#8), .none⟩ })

/-- LD Vx, K: with no key down nothing at all changes; with a key down, some down key's number is written, whichever the
free choice is (the spec's decision D9, log 4), and the draw is counted (the model's own field, log 5). That FX0A polls
is the spec's resolution C9 (log 34). -/
def Obligations.WaitForKey : Prop :=
  ∀ (x : Reg) (s : State),
    decode (0xF#4 ++ x.bits ++ 0x0A#8) = .ok (.ldVxK x) ∧
    ((∀ k : Fin 16, s.key[k.val] = false) → exec (.ldVxK x) s = .next s) ∧
    ((∃ k : Fin 16, s.key[k.val] = true) →
      ∃ k : Fin 16, s.key[k.val] = true ∧ exec (.ldVxK x) s =
        .next { s with v := s.v.set x.val (BitVec.ofNat 8 k.val), pc := s.pc + 2, draws := s.draws + 1 })

/-- R214, R215: LD DT, Vx; LD ST, Vx (and LD Vx, DT, 45_keys_timers.md), after which the sound output is on exactly when Vx is not 0. -/
def Obligations.TimerReadAndWrites : Prop :=
  ∀ (x : Reg) (s : State),
    decode (0xF#4 ++ x.bits ++ 0x07#8) = .ok (.ldVxDt x) ∧
    exec (.ldVxDt x) s = .next { s with v := s.v.set x.val s.DT, pc := s.pc + 2 } ∧
    decode (0xF#4 ++ x.bits ++ 0x15#8) = .ok (.ldDtVx x) ∧
    exec (.ldDtVx x) s = .next { s with DT := s.v[x.val], pc := s.pc + 2 } ∧
    decode (0xF#4 ++ x.bits ++ 0x18#8) = .ok (.ldStVx x) ∧
    ∃ t, exec (.ldStVx x) s = .next t ∧ t = { s with ST := s.v[x.val], pc := s.pc + 2 } ∧
      (t.soundActive = true ↔ s.v[x.val] ≠ 0)

/-! ### The host interface -/

/-- R216, R217: each tick of a block with no latched fault takes one from its timer unless it is 0, and changes nothing
else; TickTimers does both as one transaction (R253, the combined form being the spec's decision D17, log 29). That each
call decrements is its resolution C5 (log 34). -/
def Obligations.TicksDecrementNonzeroTimers : Prop :=
  ∀ s : State, s.fault = none →
    (∃ t, transact .tickDelay s = (t, .done) ∧ t.DT.toNat = s.DT.toNat - 1 ∧ t = { s with DT := t.DT }) ∧
    (∃ t, transact .tickSound s = (t, .done) ∧ t.ST.toNat = s.ST.toNat - 1 ∧ t = { s with ST := t.ST }) ∧
    ∃ t, transact .tickTimers s = (t, .done) ∧ t.DT.toNat = s.DT.toNat - 1 ∧ t.ST.toNat = s.ST.toNat - 1 ∧
      t = { s with DT := t.DT, ST := t.ST }

/-- LoadProgram writes byte j at 0x200 + j and nothing else; an image over 0xE00 bytes is refused and changes nothing
(the spec's decision D21, log 29). The premise Memory.wf is the model's own (log 1). That a load is accepted at any time
before a fault is its resolution C14 (log 34). -/
def Obligations.LoadProgramWritesTheImage : Prop :=
  ∀ (bytes : List Byte) (s : State), s.fault = none → Memory.wf s.mem →
    (bytes.length ≤ 0xE00 →
      ∃ t, transact (.loadProgram bytes) s = (t, .done) ∧ t = { s with mem := t.mem } ∧
        (∀ (j : Nat) (h : j < bytes.length), Memory.read t.mem (0x200 + j) = bytes[j]) ∧
        ∀ a, (a < 0x200 ∨ 0x200 + bytes.length ≤ a) → Memory.read t.mem a = Memory.read s.mem a) ∧
    (0xE00 < bytes.length → transact (.loadProgram bytes) s = (s, .refused))

/-- SetKey sets one latch flag; an index of 16 or more is refused and changes nothing (the spec's decision D21, log 29). -/
def Obligations.SetKeySetsOneFlag : Prop :=
  ∀ (k : Nat) (down : Bool) (s : State), s.fault = none →
    (∀ h : k < 16, transact (.setKey k down) s = ({ s with key := s.key.set k down }, .done)) ∧
    (16 ≤ k → transact (.setKey k down) s = (s, .refused))

/-- DumpMemory gives the bytes from start to stop - 1 and changes nothing; a bound outside [0, 4096] latches DUMP_RANGE
with both bounds, or nothing when a fault is already latched (the spec's decision D20, log 29). That a fault is a next
state in which the latch alone changes is D12 (log 8, log 21). -/
def Obligations.DumpMemoryReadsOrFaults : Prop :=
  (∀ (start stop : Nat) (s : State), start ≤ 4096 → stop ≤ 4096 →
    transact (.dumpMemory start stop) s =
      (s, .bytes ((List.range (stop - start)).map fun j => Memory.read s.mem (start + j)))) ∧
  ∀ (start stop : Int) (s : State), (start < 0 ∨ 4096 < start ∨ stop < 0 ∨ 4096 < stop) →
    (s.fault = none → (transact (.dumpMemory start stop) s).1 =
      { s with fault := some ⟨.dumpRange, s.pc, none, .bounds start stop⟩ }) ∧
    (∀ f, s.fault = some f → transact (.dumpMemory start stop) s = (s, .bytes []))

/-- The read transactions change nothing and answer the pixels in index order, the sound level and the latch, a latched
fault or none (R255's and R256's atomic reads are the spec's decisions D18 and D11). The transactions are log 29, the
latch's form log 32, and that there is no record while nothing is latched is log 7. -/
def Obligations.HostReadsChangeNothing : Prop :=
  ∀ s : State,
    (∃ pixels, transact .readDisplay s = (s, .display pixels) ∧ pixels.length = 2048 ∧
      ∀ p, p < 2048 → pixels[p]? = some (Display.pixel s.disp p)) ∧
    (∃ active, transact .soundActive s = (s, .sound active) ∧ (active = true ↔ s.ST.toNat ≠ 0)) ∧
    transact .readStatus s = (s, .status s.fault)

/-- Reset from any state, a halted one too: the values of 10_state.md and 70_reset_and_hazards.md, memory the glyph
table and zeros, the latch clear. The zeros of V0 to VE, I, the stack, the display and memory are the spec's decision
D14 (log 6); the count of draws goes on (the model's own field, log 5). The glyph bytes are free values (D22, log 2). -/
def Obligations.ResetPutsEveryValue : Prop :=
  ∀ s : State, ∃ t, transact .reset s = (t, .done) ∧ t.pc = 0x200#16 ∧ t.I = 0 ∧ t.sp = 0 ∧ t.DT = 0 ∧ t.ST = 0 ∧
    t.fault = none ∧ t.draws = s.draws ∧
    (∀ k : Fin 16, t.v[k.val] = 0 ∧ t.stack[k.val] = 0 ∧ t.key[k.val] = false) ∧
    (∀ p, p < 2048 → Display.pixel t.disp p = false) ∧
    (∀ a : Fin 80, Memory.read t.mem a.val = Config.glyphData a) ∧
    ∀ a, 0x050 ≤ a → a < 0x1000 → Memory.read t.mem a = 0
end

