-- ==== Sys2Proof/Laws/Decode.lean ====
section
/-! SUPPORT. Laws/Decode.lean: the fields of an assembled word, one lemma per format and field (R71, R72), and the
bytes of a word. -/

namespace Sys2Proof

/-! ### Bits of an appended word -/

theorem bits_op_nnn (op : BitVec 4) (nnn : BitVec 12) : BitVec.extractLsb' (n := 16) 12 4 (op ++ nnn) = op := by
  refine BitVec.eq_of_getLsbD_eq fun i hi => ?_
  simp only [BitVec.getLsbD_extractLsb', BitVec.getLsbD_append]
  interval_cases i <;> simp

theorem bits_nnn_nnn (op : BitVec 4) (nnn : BitVec 12) : BitVec.extractLsb' (n := 16) 0 12 (op ++ nnn) = nnn := by
  refine BitVec.eq_of_getLsbD_eq fun i hi => ?_
  simp only [BitVec.getLsbD_extractLsb', BitVec.getLsbD_append]
  interval_cases i <;> simp

theorem bits_op_xnn (op x : BitVec 4) (nn : Byte) : BitVec.extractLsb' (n := 16) 12 4 (op ++ x ++ nn) = op := by
  refine BitVec.eq_of_getLsbD_eq fun i hi => ?_
  simp only [BitVec.getLsbD_extractLsb', BitVec.getLsbD_append]
  interval_cases i <;> simp

theorem bits_x_xnn (op x : BitVec 4) (nn : Byte) : BitVec.extractLsb' (n := 16) 8 4 (op ++ x ++ nn) = x := by
  refine BitVec.eq_of_getLsbD_eq fun i hi => ?_
  simp only [BitVec.getLsbD_extractLsb', BitVec.getLsbD_append]
  interval_cases i <;> simp

theorem bits_nn_xnn (op x : BitVec 4) (nn : Byte) : BitVec.extractLsb' (n := 16) 0 8 (op ++ x ++ nn) = nn := by
  refine BitVec.eq_of_getLsbD_eq fun i hi => ?_
  simp only [BitVec.getLsbD_extractLsb', BitVec.getLsbD_append]
  interval_cases i <;> simp

theorem bits_op_xyn (op x y n : BitVec 4) : BitVec.extractLsb' (n := 16) 12 4 (op ++ x ++ y ++ n) = op := by
  refine BitVec.eq_of_getLsbD_eq fun i hi => ?_
  simp only [BitVec.getLsbD_extractLsb', BitVec.getLsbD_append]
  interval_cases i <;> simp

theorem bits_x_xyn (op x y n : BitVec 4) : BitVec.extractLsb' (n := 16) 8 4 (op ++ x ++ y ++ n) = x := by
  refine BitVec.eq_of_getLsbD_eq fun i hi => ?_
  simp only [BitVec.getLsbD_extractLsb', BitVec.getLsbD_append]
  interval_cases i <;> simp

theorem bits_y_xyn (op x y n : BitVec 4) : BitVec.extractLsb' (n := 16) 4 4 (op ++ x ++ y ++ n) = y := by
  refine BitVec.eq_of_getLsbD_eq fun i hi => ?_
  simp only [BitVec.getLsbD_extractLsb', BitVec.getLsbD_append]
  interval_cases i <;> simp

theorem bits_n_xyn (op x y n : BitVec 4) : BitVec.extractLsb' (n := 16) 0 4 (op ++ x ++ y ++ n) = n := by
  refine BitVec.eq_of_getLsbD_eq fun i hi => ?_
  simp only [BitVec.getLsbD_extractLsb', BitVec.getLsbD_append]
  interval_cases i <;> simp

theorem bits_hi (a b : Byte) : BitVec.extractLsb' (n := 16) 8 8 (a ++ b) = a := by
  refine BitVec.eq_of_getLsbD_eq fun i hi => ?_
  simp only [BitVec.getLsbD_extractLsb', BitVec.getLsbD_append]
  interval_cases i <;> simp

theorem bits_lo (a b : Byte) : BitVec.extractLsb' (n := 16) 0 8 (a ++ b) = b := by
  refine BitVec.eq_of_getLsbD_eq fun i hi => ?_
  simp only [BitVec.getLsbD_extractLsb', BitVec.getLsbD_append]
  interval_cases i <;> simp

/-! ### Format NNN -/

@[simp] theorem opField_nnn (op : BitVec 4) (nnn : BitVec 12) : opField (op ++ nnn) = op :=
  bits_op_nnn op nnn

@[simp] theorem nnnField_nnn (op : BitVec 4) (nnn : BitVec 12) : nnnField (op ++ nnn) = nnn :=
  bits_nnn_nnn op nnn

/-! ### Formats XNN and X -/

@[simp] theorem opField_xnn (op x : BitVec 4) (nn : Byte) : opField (op ++ x ++ nn) = op :=
  bits_op_xnn op x nn

@[simp] theorem xField_xnn (op x : BitVec 4) (nn : Byte) : xField (op ++ x ++ nn) = x.toFin :=
  congrArg BitVec.toFin (bits_x_xnn op x nn)

@[simp] theorem nnField_xnn (op x : BitVec 4) (nn : Byte) : nnField (op ++ x ++ nn) = nn :=
  bits_nn_xnn op x nn

/-! ### Formats XY and XYN -/

@[simp] theorem opField_xyn (op x y n : BitVec 4) : opField (op ++ x ++ y ++ n) = op :=
  bits_op_xyn op x y n

@[simp] theorem xField_xyn (op x y n : BitVec 4) : xField (op ++ x ++ y ++ n) = x.toFin :=
  congrArg BitVec.toFin (bits_x_xyn op x y n)

@[simp] theorem yField_xyn (op x y n : BitVec 4) : yField (op ++ x ++ y ++ n) = y.toFin :=
  congrArg BitVec.toFin (bits_y_xyn op x y n)

@[simp] theorem nField_xyn (op x y n : BitVec 4) : nField (op ++ x ++ y ++ n) = n :=
  bits_n_xyn op x y n

/-! ### Bytes -/

@[simp] theorem highByte_wordOfBytes (hi lo : Byte) : highByte (wordOfBytes hi lo) = hi := bits_hi hi lo

@[simp] theorem lowByte_wordOfBytes (hi lo : Byte) : lowByte (wordOfBytes hi lo) = lo := bits_lo hi lo

/-- A word is its two bytes, high byte first (R56). -/
@[simp] theorem wordOfBytes_bytes (w : Word) : wordOfBytes (highByte w) (lowByte w) = w := by
  refine BitVec.eq_of_getLsbD_eq fun i hi => ?_
  simp only [wordOfBytes, highByte, lowByte, BitVec.getLsbD_append, BitVec.getLsbD_extractLsb']
  interval_cases i <;> simp

end Sys2Proof
end

