-- ==== Sys2Proof/Laws/State.lean ====
section
/-! SUPPORT. Laws/State.lean: one lemma per field per update of State, so that no later proof unfolds a record update,
and the register file's read-after-write laws. -/

namespace Sys2Proof.Machine

variable (s : State)

/-! #### `State.latch` -/

@[simp] theorem State.latch_mem (c : FaultCause) (w : Option Word) (info : FaultInfo) : (s.latch c w info).mem = s.mem := rfl
@[simp] theorem State.latch_v (c : FaultCause) (w : Option Word) (info : FaultInfo) : (s.latch c w info).v = s.v := rfl
@[simp] theorem State.latch_I (c : FaultCause) (w : Option Word) (info : FaultInfo) : (s.latch c w info).I = s.I := rfl
@[simp] theorem State.latch_pc (c : FaultCause) (w : Option Word) (info : FaultInfo) : (s.latch c w info).pc = s.pc := rfl
@[simp] theorem State.latch_stack (c : FaultCause) (w : Option Word) (info : FaultInfo) : (s.latch c w info).stack = s.stack := rfl
@[simp] theorem State.latch_sp (c : FaultCause) (w : Option Word) (info : FaultInfo) : (s.latch c w info).sp = s.sp := rfl
@[simp] theorem State.latch_DT (c : FaultCause) (w : Option Word) (info : FaultInfo) : (s.latch c w info).DT = s.DT := rfl
@[simp] theorem State.latch_ST (c : FaultCause) (w : Option Word) (info : FaultInfo) : (s.latch c w info).ST = s.ST := rfl
@[simp] theorem State.latch_disp (c : FaultCause) (w : Option Word) (info : FaultInfo) : (s.latch c w info).disp = s.disp := rfl
@[simp] theorem State.latch_key (c : FaultCause) (w : Option Word) (info : FaultInfo) : (s.latch c w info).key = s.key := rfl
@[simp] theorem State.latch_fault (c : FaultCause) (w : Option Word) (info : FaultInfo) : (s.latch c w info).fault = some { cause := c, pc := s.pc, word := w, info } := rfl
@[simp] theorem State.latch_draws (c : FaultCause) (w : Option Word) (info : FaultInfo) : (s.latch c w info).draws = s.draws := rfl

/-! #### `State.setV` -/

@[simp] theorem State.setV_mem (x : Reg) (b : Byte) : (s.setV x b).mem = s.mem := rfl
@[simp] theorem State.setV_v (x : Reg) (b : Byte) : (s.setV x b).v = s.v.set x.val b := rfl
@[simp] theorem State.setV_I (x : Reg) (b : Byte) : (s.setV x b).I = s.I := rfl
@[simp] theorem State.setV_pc (x : Reg) (b : Byte) : (s.setV x b).pc = s.pc := rfl
@[simp] theorem State.setV_stack (x : Reg) (b : Byte) : (s.setV x b).stack = s.stack := rfl
@[simp] theorem State.setV_sp (x : Reg) (b : Byte) : (s.setV x b).sp = s.sp := rfl
@[simp] theorem State.setV_DT (x : Reg) (b : Byte) : (s.setV x b).DT = s.DT := rfl
@[simp] theorem State.setV_ST (x : Reg) (b : Byte) : (s.setV x b).ST = s.ST := rfl
@[simp] theorem State.setV_disp (x : Reg) (b : Byte) : (s.setV x b).disp = s.disp := rfl
@[simp] theorem State.setV_key (x : Reg) (b : Byte) : (s.setV x b).key = s.key := rfl
@[simp] theorem State.setV_fault (x : Reg) (b : Byte) : (s.setV x b).fault = s.fault := rfl
@[simp] theorem State.setV_draws (x : Reg) (b : Byte) : (s.setV x b).draws = s.draws := rfl

/-! #### `State.setVFlag` -/

@[simp] theorem State.setVFlag_mem (x : Reg) (b f : Byte) : (s.setVFlag x b f).mem = s.mem := rfl
@[simp] theorem State.setVFlag_v (x : Reg) (b f : Byte) : (s.setVFlag x b f).v = (s.v.set x.val b).set 15 f := rfl
@[simp] theorem State.setVFlag_I (x : Reg) (b f : Byte) : (s.setVFlag x b f).I = s.I := rfl
@[simp] theorem State.setVFlag_pc (x : Reg) (b f : Byte) : (s.setVFlag x b f).pc = s.pc := rfl
@[simp] theorem State.setVFlag_stack (x : Reg) (b f : Byte) : (s.setVFlag x b f).stack = s.stack := rfl
@[simp] theorem State.setVFlag_sp (x : Reg) (b f : Byte) : (s.setVFlag x b f).sp = s.sp := rfl
@[simp] theorem State.setVFlag_DT (x : Reg) (b f : Byte) : (s.setVFlag x b f).DT = s.DT := rfl
@[simp] theorem State.setVFlag_ST (x : Reg) (b f : Byte) : (s.setVFlag x b f).ST = s.ST := rfl
@[simp] theorem State.setVFlag_disp (x : Reg) (b f : Byte) : (s.setVFlag x b f).disp = s.disp := rfl
@[simp] theorem State.setVFlag_key (x : Reg) (b f : Byte) : (s.setVFlag x b f).key = s.key := rfl
@[simp] theorem State.setVFlag_fault (x : Reg) (b f : Byte) : (s.setVFlag x b f).fault = s.fault := rfl
@[simp] theorem State.setVFlag_draws (x : Reg) (b f : Byte) : (s.setVFlag x b f).draws = s.draws := rfl

/-! #### `State.setI` -/

@[simp] theorem State.setI_mem (w : Word) : (s.setI w).mem = s.mem := rfl
@[simp] theorem State.setI_v (w : Word) : (s.setI w).v = s.v := rfl
@[simp] theorem State.setI_I (w : Word) : (s.setI w).I = w := rfl
@[simp] theorem State.setI_pc (w : Word) : (s.setI w).pc = s.pc := rfl
@[simp] theorem State.setI_stack (w : Word) : (s.setI w).stack = s.stack := rfl
@[simp] theorem State.setI_sp (w : Word) : (s.setI w).sp = s.sp := rfl
@[simp] theorem State.setI_DT (w : Word) : (s.setI w).DT = s.DT := rfl
@[simp] theorem State.setI_ST (w : Word) : (s.setI w).ST = s.ST := rfl
@[simp] theorem State.setI_disp (w : Word) : (s.setI w).disp = s.disp := rfl
@[simp] theorem State.setI_key (w : Word) : (s.setI w).key = s.key := rfl
@[simp] theorem State.setI_fault (w : Word) : (s.setI w).fault = s.fault := rfl
@[simp] theorem State.setI_draws (w : Word) : (s.setI w).draws = s.draws := rfl

/-! #### `State.setFirst` -/

@[simp] theorem State.setFirst_mem (bs : List Byte) : (s.setFirst bs).mem = s.mem := rfl
@[simp] theorem State.setFirst_v (bs : List Byte) : (s.setFirst bs).v = Vector.ofFn fun k => (bs[k.val]?).getD s.v[k.val] := rfl
@[simp] theorem State.setFirst_I (bs : List Byte) : (s.setFirst bs).I = s.I := rfl
@[simp] theorem State.setFirst_pc (bs : List Byte) : (s.setFirst bs).pc = s.pc := rfl
@[simp] theorem State.setFirst_stack (bs : List Byte) : (s.setFirst bs).stack = s.stack := rfl
@[simp] theorem State.setFirst_sp (bs : List Byte) : (s.setFirst bs).sp = s.sp := rfl
@[simp] theorem State.setFirst_DT (bs : List Byte) : (s.setFirst bs).DT = s.DT := rfl
@[simp] theorem State.setFirst_ST (bs : List Byte) : (s.setFirst bs).ST = s.ST := rfl
@[simp] theorem State.setFirst_disp (bs : List Byte) : (s.setFirst bs).disp = s.disp := rfl
@[simp] theorem State.setFirst_key (bs : List Byte) : (s.setFirst bs).key = s.key := rfl
@[simp] theorem State.setFirst_fault (bs : List Byte) : (s.setFirst bs).fault = s.fault := rfl
@[simp] theorem State.setFirst_draws (bs : List Byte) : (s.setFirst bs).draws = s.draws := rfl

/-! #### `State.countDraw` -/

@[simp] theorem State.countDraw_mem : (s.countDraw).mem = s.mem := rfl
@[simp] theorem State.countDraw_v : (s.countDraw).v = s.v := rfl
@[simp] theorem State.countDraw_I : (s.countDraw).I = s.I := rfl
@[simp] theorem State.countDraw_pc : (s.countDraw).pc = s.pc := rfl
@[simp] theorem State.countDraw_stack : (s.countDraw).stack = s.stack := rfl
@[simp] theorem State.countDraw_sp : (s.countDraw).sp = s.sp := rfl
@[simp] theorem State.countDraw_DT : (s.countDraw).DT = s.DT := rfl
@[simp] theorem State.countDraw_ST : (s.countDraw).ST = s.ST := rfl
@[simp] theorem State.countDraw_disp : (s.countDraw).disp = s.disp := rfl
@[simp] theorem State.countDraw_key : (s.countDraw).key = s.key := rfl
@[simp] theorem State.countDraw_fault : (s.countDraw).fault = s.fault := rfl
@[simp] theorem State.countDraw_draws : (s.countDraw).draws = s.draws + 1 := rfl

/-! #### `State.store` -/

@[simp] theorem State.store_mem (a : Nat) (bs : List Byte) : (s.store a bs).mem = Memory.writeBytes s.mem a bs := rfl
@[simp] theorem State.store_v (a : Nat) (bs : List Byte) : (s.store a bs).v = s.v := rfl
@[simp] theorem State.store_I (a : Nat) (bs : List Byte) : (s.store a bs).I = s.I := rfl
@[simp] theorem State.store_pc (a : Nat) (bs : List Byte) : (s.store a bs).pc = s.pc := rfl
@[simp] theorem State.store_stack (a : Nat) (bs : List Byte) : (s.store a bs).stack = s.stack := rfl
@[simp] theorem State.store_sp (a : Nat) (bs : List Byte) : (s.store a bs).sp = s.sp := rfl
@[simp] theorem State.store_DT (a : Nat) (bs : List Byte) : (s.store a bs).DT = s.DT := rfl
@[simp] theorem State.store_ST (a : Nat) (bs : List Byte) : (s.store a bs).ST = s.ST := rfl
@[simp] theorem State.store_disp (a : Nat) (bs : List Byte) : (s.store a bs).disp = s.disp := rfl
@[simp] theorem State.store_key (a : Nat) (bs : List Byte) : (s.store a bs).key = s.key := rfl
@[simp] theorem State.store_fault (a : Nat) (bs : List Byte) : (s.store a bs).fault = s.fault := rfl
@[simp] theorem State.store_draws (a : Nat) (bs : List Byte) : (s.store a bs).draws = s.draws := rfl

/-! #### `State.draw` -/

@[simp] theorem State.draw_mem (ps : List Nat) : (s.draw ps).mem = s.mem := rfl
@[simp] theorem State.draw_v (ps : List Nat) : (s.draw ps).v = s.v.set 15 (collisionFlag (drawTargets s.disp ps).2) := rfl
@[simp] theorem State.draw_I (ps : List Nat) : (s.draw ps).I = s.I := rfl
@[simp] theorem State.draw_pc (ps : List Nat) : (s.draw ps).pc = s.pc := rfl
@[simp] theorem State.draw_stack (ps : List Nat) : (s.draw ps).stack = s.stack := rfl
@[simp] theorem State.draw_sp (ps : List Nat) : (s.draw ps).sp = s.sp := rfl
@[simp] theorem State.draw_DT (ps : List Nat) : (s.draw ps).DT = s.DT := rfl
@[simp] theorem State.draw_ST (ps : List Nat) : (s.draw ps).ST = s.ST := rfl
@[simp] theorem State.draw_disp (ps : List Nat) : (s.draw ps).disp = (drawTargets s.disp ps).1 := rfl
@[simp] theorem State.draw_key (ps : List Nat) : (s.draw ps).key = s.key := rfl
@[simp] theorem State.draw_fault (ps : List Nat) : (s.draw ps).fault = s.fault := rfl
@[simp] theorem State.draw_draws (ps : List Nat) : (s.draw ps).draws = s.draws := rfl

/-! #### `State.tickDelay` -/

@[simp] theorem State.tickDelay_mem : (s.tickDelay).mem = s.mem := rfl
@[simp] theorem State.tickDelay_v : (s.tickDelay).v = s.v := rfl
@[simp] theorem State.tickDelay_I : (s.tickDelay).I = s.I := rfl
@[simp] theorem State.tickDelay_pc : (s.tickDelay).pc = s.pc := rfl
@[simp] theorem State.tickDelay_stack : (s.tickDelay).stack = s.stack := rfl
@[simp] theorem State.tickDelay_sp : (s.tickDelay).sp = s.sp := rfl
@[simp] theorem State.tickDelay_DT : (s.tickDelay).DT = timerTick s.DT := rfl
@[simp] theorem State.tickDelay_ST : (s.tickDelay).ST = s.ST := rfl
@[simp] theorem State.tickDelay_disp : (s.tickDelay).disp = s.disp := rfl
@[simp] theorem State.tickDelay_key : (s.tickDelay).key = s.key := rfl
@[simp] theorem State.tickDelay_fault : (s.tickDelay).fault = s.fault := rfl
@[simp] theorem State.tickDelay_draws : (s.tickDelay).draws = s.draws := rfl

/-! #### `State.tickSound` -/

@[simp] theorem State.tickSound_mem : (s.tickSound).mem = s.mem := rfl
@[simp] theorem State.tickSound_v : (s.tickSound).v = s.v := rfl
@[simp] theorem State.tickSound_I : (s.tickSound).I = s.I := rfl
@[simp] theorem State.tickSound_pc : (s.tickSound).pc = s.pc := rfl
@[simp] theorem State.tickSound_stack : (s.tickSound).stack = s.stack := rfl
@[simp] theorem State.tickSound_sp : (s.tickSound).sp = s.sp := rfl
@[simp] theorem State.tickSound_DT : (s.tickSound).DT = s.DT := rfl
@[simp] theorem State.tickSound_ST : (s.tickSound).ST = timerTick s.ST := rfl
@[simp] theorem State.tickSound_disp : (s.tickSound).disp = s.disp := rfl
@[simp] theorem State.tickSound_key : (s.tickSound).key = s.key := rfl
@[simp] theorem State.tickSound_fault : (s.tickSound).fault = s.fault := rfl
@[simp] theorem State.tickSound_draws : (s.tickSound).draws = s.draws := rfl

/-! #### Registers -/

@[simp] theorem State.getV_setV_same (x : Reg) (b : Byte) : (s.setV x b).getV x = b := by simp [State.getV]

theorem State.getV_setV_other {x y : Reg} (h : x ≠ y) (b : Byte) : (s.setV x b).getV y = s.getV y := by
  have : x.val ≠ y.val := fun e => h (Fin.ext e)
  simp [State.getV, this]

theorem State.getV_setV (x y : Reg) (b : Byte) : (s.setV x b).getV y = if x = y then b else s.getV y := by
  split
  · next h => subst h; simp
  · next h => exact s.getV_setV_other h b

theorem State.getV_setFirst (bs : List Byte) (x : Reg) :
    (s.setFirst bs).getV x = (bs[x.val]?).getD (s.getV x) := by simp [State.getV]

@[simp] theorem State.getV_latch (c : FaultCause) (w : Option Word) (info : FaultInfo) (x : Reg) :
    (s.latch c w info).getV x = s.getV x := rfl

/-- V0 to V[x], read one by one. -/
theorem State.firstRegs_getElem? (x : Reg) (k : Nat) :
    (s.firstRegs x)[k]? = if h : k ≤ x.val then some (s.getV ⟨k, by omega⟩) else none := by
  have hx := x.isLt
  by_cases h : k ≤ x.val
  · have h1 : k < x.val + 1 := by omega
    simp [State.firstRegs, State.getV, h, h1]
  · have h1 : ¬ k < x.val + 1 := by omega
    simp [State.firstRegs, h, h1]

@[simp] theorem State.firstRegs_length (x : Reg) : (s.firstRegs x).length = x.val + 1 := by
  simp [State.firstRegs]

/-! #### Reset -/

@[simp] theorem State.reset_mem : State.reset.mem = [] := rfl
@[simp] theorem State.reset_pc : State.reset.pc = 0x200#16 := rfl
@[simp] theorem State.reset_fault : State.reset.fault = none := rfl
@[simp] theorem State.reset_sp : State.reset.sp = 0 := rfl

theorem State.reset_getV (x : Reg) : State.reset.getV x = 0 := by simp [State.getV, State.reset]

end Sys2Proof.Machine
end

