-- ==== Sys2Proof/Laws/Memory.lean ====
section
/-! SUPPORT. Laws/Memory.lean: the laws of memory: a read after a write to the same address gives the value written, a
write leaves every other address alone, and every memory operation keeps the canonical form. -/

namespace Sys2Proof.Machine

/-! ### Reading what was put -/

theorem Memory.read_put_same (m : List Host.Cell) (a : Nat) (b : Byte)
    (h : m.Pairwise (fun c d => c.1 < d.1)) : Memory.read (Memory.put m a b) a = b := by
  induction m with
  | nil => simp only [Memory.put]; split <;> simp_all [Memory.read]
  | cons c m ih =>
    obtain ⟨hc, hm⟩ := List.pairwise_cons.mp h
    have absent : ∀ m' : List Host.Cell, (∀ d ∈ m', a < d.1) → Memory.read m' a = Memory.background a := by
      intro m' hm'
      induction m' with
      | nil => rfl
      | cons d m' ih' =>
        have hd := hm' d (by simp)
        simp only [Memory.read, if_neg (Nat.ne_of_gt hd)]
        exact ih' fun e he => hm' e (by simp [he])
    simp only [Memory.put]
    split
    · next lt =>
      split
      · next e =>
        subst e
        exact absent (c :: m) (by
          intro d hd
          rcases List.mem_cons.mp hd with rfl | hd
          · exact lt
          · exact Nat.lt_trans lt (hc d hd))
      · simp [Memory.read]
    · split
      · next e =>
        subst e
        split
        · next e => subst e; exact absent m hc
        · simp [Memory.read]
      · next ne => simp only [Memory.read, if_neg (Ne.symm ne)]; exact ih hm

theorem Memory.read_put_other (m : List Host.Cell) {a a' : Nat} (b : Byte) (ne : a' ≠ a) :
    Memory.read (Memory.put m a b) a' = Memory.read m a' := by
  have ne' : ¬ a = a' := fun h => ne h.symm
  induction m with
  | nil => simp only [Memory.put]; split <;> simp [Memory.read, ne']
  | cons c m ih =>
    simp only [Memory.put]
    split
    · split <;> simp [Memory.read, ne']
    · split
      · next h => subst h; split <;> simp [Memory.read, ne']
      · simp only [Memory.read, ih]

theorem Memory.read_write_same {m : List Host.Cell} (h : Memory.wf m) {a : Nat} (ha : a < 0x1000) (b : Byte) :
    Memory.read (Memory.write m a b) a = b := by
  simp only [Memory.write, if_pos ha]; exact Memory.read_put_same m a b h.1

theorem Memory.read_write_other (m : List Host.Cell) {a a' : Nat} (b : Byte) (ne : a' ≠ a) :
    Memory.read (Memory.write m a b) a' = Memory.read m a' := by
  simp only [Memory.write]; split
  · exact Memory.read_put_other m b ne
  · rfl

/-! ### The canonical form -/

/-- A put lists nothing but what was listed and the cell put. -/
theorem Memory.mem_put {m : List Host.Cell} {a : Nat} {b : Byte} {c : Host.Cell} (h : c ∈ Memory.put m a b) :
    c ∈ m ∨ (c = (a, b) ∧ b ≠ Memory.background a) := by
  induction m with
  | nil => simp only [Memory.put] at h; split at h <;> simp_all
  | cons d m ih =>
    simp only [Memory.put] at h
    split at h
    · split at h <;> simp_all; tauto
    · split at h
      · split at h <;> simp_all; tauto
      · simp only [List.mem_cons] at h ⊢; tauto

theorem Memory.put_sorted (m : List Host.Cell) (a : Nat) (b : Byte)
    (h : m.Pairwise (fun c d => c.1 < d.1)) : (Memory.put m a b).Pairwise (fun c d => c.1 < d.1) := by
  induction m with
  | nil => simp only [Memory.put]; split <;> simp
  | cons c m ih =>
    obtain ⟨hc, hm⟩ := List.pairwise_cons.mp h
    simp only [Memory.put]
    split
    · next lt =>
      split
      · exact h
      · refine List.pairwise_cons.mpr ⟨fun d hd => ?_, h⟩
        rcases List.mem_cons.mp hd with rfl | hd
        · exact lt
        · exact Nat.lt_trans lt (hc d hd)
    · next nlt =>
      split
      · next e =>
        subst e
        split
        · exact hm
        · exact List.pairwise_cons.mpr ⟨hc, hm⟩
      · next ne =>
        refine List.pairwise_cons.mpr ⟨fun d hd => ?_, ih hm⟩
        rcases Memory.mem_put hd with hd | ⟨rfl, -⟩
        · exact hc d hd
        · show c.1 < a; omega

theorem Memory.write_wf {m : List Host.Cell} (h : Memory.wf m) (a : Nat) (b : Byte) :
    Memory.wf (Memory.write m a b) := by
  simp only [Memory.write]; split
  · next lt =>
    refine ⟨Memory.put_sorted m a b h.1, fun c hc => ?_⟩
    rcases Memory.mem_put hc with hc | ⟨rfl, hb⟩
    · exact h.2 c hc
    · exact ⟨lt, hb⟩
  · exact h

theorem Memory.writeBytes_wf {m : List Host.Cell} (h : Memory.wf m) (a : Nat) (bs : List Byte) :
    Memory.wf (Memory.writeBytes m a bs) := by
  induction bs generalizing m a with
  | nil => exact h
  | cons b bs ih => exact ih (Memory.write_wf h a b) (a + 1)

/-- What a write lists below an address was listed before, or is the write itself. -/
theorem Memory.write_low {m : List Host.Cell} {lo a : Nat} {b : Byte} (h : ∀ c ∈ m, lo ≤ c.1) (ha : lo ≤ a) :
    ∀ c ∈ Memory.write m a b, lo ≤ c.1 := by
  intro c hc
  simp only [Memory.write] at hc
  split at hc
  · rcases Memory.mem_put hc with hc | ⟨rfl, -⟩
    · exact h c hc
    · exact ha
  · exact h c hc

theorem Memory.writeBytes_low {m : List Host.Cell} {lo a : Nat} (h : ∀ c ∈ m, lo ≤ c.1) (ha : lo ≤ a)
    (bs : List Byte) : ∀ c ∈ Memory.writeBytes m a bs, lo ≤ c.1 := by
  induction bs generalizing m a with
  | nil => exact h
  | cons b bs ih => exact ih (Memory.write_low h ha) (by omega)

/-! ### Consecutive bytes -/

/-- Below the first address written, nothing changes. -/
theorem Memory.read_writeBytes_below (m : List Host.Cell) (bs : List Byte) {a a' : Nat} (h : a' < a) :
    Memory.read (Memory.writeBytes m a bs) a' = Memory.read m a' := by
  induction bs generalizing m a with
  | nil => rfl
  | cons b bs ih =>
    rw [Memory.writeBytes, ih (Memory.write m a b) (by omega), Memory.read_write_other m b (by omega)]

/-- Past the last address written, nothing changes. -/
theorem Memory.read_writeBytes_above (m : List Host.Cell) (bs : List Byte) {a a' : Nat} (h : a + bs.length ≤ a') :
    Memory.read (Memory.writeBytes m a bs) a' = Memory.read m a' := by
  induction bs generalizing m a with
  | nil => rfl
  | cons b bs ih =>
    have : a + 1 + bs.length ≤ a' := by simp only [List.length_cons] at h; omega
    rw [Memory.writeBytes, ih (Memory.write m a b) this, Memory.read_write_other m b (by omega)]

/-- Each address written reads as its byte. -/
theorem Memory.read_writeBytes_inside {m : List Host.Cell} (hm : Memory.wf m) (bs : List Byte) {a k : Nat}
    (hk : k < bs.length) (ha : a + k < 0x1000) : Memory.read (Memory.writeBytes m a bs) (a + k) = bs[k] := by
  induction bs generalizing m a k with
  | nil => simp at hk
  | cons b bs ih =>
    rw [Memory.writeBytes]
    cases k with
    | zero =>
      rw [Memory.read_writeBytes_below _ bs (by omega)]
      exact Memory.read_write_same hm (by omega) b
    | succ k =>
      have := ih (Memory.write_wf hm a b) (a := a + 1) (k := k) (by simpa using hk) (by omega)
      rw [show a + (k + 1) = a + 1 + k by omega, this]; rfl

@[simp] theorem Memory.readBytes_length (m : List Host.Cell) (a n : Nat) : (Memory.readBytes m a n).length = n := by
  simp [Memory.readBytes]

@[simp] theorem Memory.readBytes_zero (m : List Host.Cell) (a : Nat) : Memory.readBytes m a 0 = [] := rfl

theorem Memory.readBytes_getElem? (m : List Host.Cell) (a n k : Nat) :
    (Memory.readBytes m a n)[k]? = if k < n then some (Memory.read m (a + k)) else none := by
  by_cases h : k < n <;> simp [Memory.readBytes, h]

theorem Memory.wf_nil : Memory.wf [] := by simp [Memory.wf]

theorem State.reset_wf : Memory.wf State.reset.mem := Memory.wf_nil

end Sys2Proof.Machine
end

