-- ==== Sys2Proof/Laws/Ops.lean ====
section
/-! SUPPORT. Laws/Ops.lean: for each shared operation, everything it can do, said once; the provers cite these and do
not unfold the operations. -/

namespace Sys2Proof.Machine

/-! ### Ends of a step -/

theorem advance_eq (s : State) : advance s = .next { s with pc := s.pc + 2 } := rfl
theorem jumpTo_eq (t : Word) (s : State) : jumpTo t s = .next { s with pc := t } := rfl
theorem skipIf_eq (c : Bool) (s : State) : skipIf c s = .next { s with pc := if c then s.pc + 4 else s.pc + 2 } := rfl
theorem stay_eq (s : State) : stay s = .next s := rfl

/-- Raising a fault answers a next state that differs in the latch only. -/
theorem raise_eq (i : Instr) (s : State) (r : Raise) :
    raise i s r =
      .next { s with fault := some { cause := r.cause, pc := s.pc, word := some (encode i), info := r.info } } := rfl

theorem unlessRaised_some (i : Instr) (s : State) (r : Raise) (body : Host.Outcome State Fault Refusal) :
    unlessRaised i s (some r) body = raise i s r := rfl

theorem unlessRaised_none (i : Instr) (s : State) (body : Host.Outcome State Fault Refusal) :
    unlessRaised i s none body = body := rfl

/-- A guarded body ends in the body's outcome, no check having failed, or in the failed check's fault. -/
theorem unlessRaised_cases {i : Instr} {s t : State} {f : Option Raise} {body : Host.Outcome State Fault Refusal}
    (h : unlessRaised i s f body = .next t) :
    (f = none ∧ body = .next t) ∨
      ∃ r, f = some r ∧ t = s.latch r.cause (some (encode i)) r.info := by
  cases f with
  | none => exact .inl ⟨rfl, h⟩
  | some r =>
    refine .inr ⟨r, rfl, ?_⟩
    simp only [unlessRaised, raise, Host.Outcome.next.injEq] at h
    exact h.symm

/-! ### Access checks -/

theorem readCheck_eq_none {a : Nat} : readCheck a = none ↔ a < 0x1000 := by
  simp only [readCheck]; split <;> simp_all

theorem writeCheck_eq_none {a : Nat} : writeCheck a = none ↔ 0x200 ≤ a ∧ a < 0x1000 := by
  simp only [writeCheck]; split
  · simp; omega
  · split
    · simp; omega
    · simp; omega

theorem firstFailure_eq_none {check : Nat → Option Raise} {index : Word} {n : Nat} :
    firstFailure check index n = none ↔ ∀ k < n, check (index.toNat + k) = none := by
  simp [firstFailure, effectiveAddress]

/-- No read fails when the last address is below 0x1000 (or there is none). -/
theorem firstFailure_read_eq_none {index : Word} {n : Nat} :
    firstFailure readCheck index n = none ↔ (n = 0 ∨ index.toNat + n ≤ 0x1000) := by
  rw [firstFailure_eq_none]
  simp only [readCheck_eq_none]
  constructor
  · intro h
    rcases Nat.eq_zero_or_pos n with h0 | h0
    · exact .inl h0
    · have := h (n - 1) (by omega); omega
  · rintro (h | h) k hk <;> omega

/-- No write fails when the first address is at least 0x200 and the last below 0x1000. -/
theorem firstFailure_write_eq_none {index : Word} {n : Nat} (hn : 0 < n) :
    firstFailure writeCheck index n = none ↔ (0x200 ≤ index.toNat ∧ index.toNat + n ≤ 0x1000) := by
  rw [firstFailure_eq_none]
  simp only [writeCheck_eq_none]
  constructor
  · intro h
    have h0 := h 0 hn
    have h1 := h (n - 1) (by omega)
    omega
  · rintro ⟨h1, h2⟩ k hk; omega

/-- A failed access is the lowest one that fails. -/
theorem firstFailure_eq_some {check : Nat → Option Raise} {index : Word} {n : Nat} {r : Raise}
    (h : firstFailure check index n = some r) : ∃ k < n, check (index.toNat + k) = some r := by
  simp only [firstFailure, effectiveAddress, List.findSome?_eq_some_iff] at h
  obtain ⟨l₁, k, l₂, hl, hk, -⟩ := h
  have : k ∈ List.range n := by rw [hl]; simp
  exact ⟨k, by simpa using this, hk⟩

/-- What a failed read check raises. -/
theorem readCheck_eq_some {a : Nat} {r : Raise} (h : readCheck a = some r) :
    0x1000 ≤ a ∧ r = ⟨.memOutOfRange, .address a⟩ := by
  simp only [readCheck] at h; split at h
  · next ge => exact ⟨ge, by simpa using h.symm⟩
  · simp at h

/-- What a failed write check raises. -/
theorem writeCheck_eq_some {a : Nat} {r : Raise} (h : writeCheck a = some r) :
    (0x1000 ≤ a ∧ r = ⟨.memOutOfRange, .address a⟩) ∨ (a < 0x200 ∧ r = ⟨.lowMemoryWrite, .address a⟩) := by
  simp only [writeCheck] at h; split at h
  · next ge => exact .inl ⟨ge, by simpa using h.symm⟩
  · split at h
    · next lt => exact .inr ⟨lt, by simpa using h.symm⟩
    · simp at h

theorem flagOperandFailure_eq_none {i : Instr} : flagOperandFailure i = none ↔ flagOperandConflict i = false := by
  simp only [flagOperandFailure]; split <;> simp_all

theorem flagOperandFailure_eq_some {i : Instr} {r : Raise} (h : flagOperandFailure i = some r) :
    flagOperandConflict i = true ∧ r = ⟨.flagOperand, .none⟩ := by
  simp only [flagOperandFailure] at h; split at h
  · next c => exact ⟨c, by simpa using h.symm⟩
  · simp at h

/-! ### Call stack -/

/-- A push below depth 16 writes the entry at sp and raises sp; nothing else changes. -/
theorem State.push_eq_some {s t : State} {a : Word} (h : s.push a = some t) :
    ∃ hs : s.sp.val < 16,
      t = { s with stack := s.stack.set s.sp.val a, sp := ⟨s.sp.val + 1, Nat.succ_lt_succ hs⟩ } := by
  simp only [State.push] at h; split at h
  · next hs => exact ⟨hs, by simpa using h.symm⟩
  · simp at h

theorem State.push_eq_none {s : State} {a : Word} : s.push a = none ↔ s.sp = 16 := by
  have := s.sp.isLt
  simp only [State.push]; split
  · next hs => simp only [reduceCtorEq, false_iff]; intro e; rw [e] at hs; exact absurd hs (by decide)
  · next hs => simp only [true_iff]; exact Fin.ext (by show s.sp.val = 16; omega)

/-- A pop lowers sp and gives the entry under it; the entry keeps its value and nothing else changes. -/
theorem State.pop_eq_some {s t : State} {a : Word} (h : s.pop = some (a, t)) :
    ∃ hs : 0 < s.sp.val, a = s.stack[s.sp.val - 1] ∧
      t = { s with sp := ⟨s.sp.val - 1, Nat.lt_of_le_of_lt (Nat.sub_le _ _) s.sp.isLt⟩ } := by
  simp only [State.pop] at h; split at h
  · next hs =>
    simp only [Option.some.injEq, Prod.mk.injEq] at h
    exact ⟨hs, h.1.symm, h.2.symm⟩
  · simp at h

theorem State.pop_eq_none {s : State} : s.pop = none ↔ s.sp = 0 := by
  simp only [State.pop]; split
  · next hs => simp only [reduceCtorEq, false_iff]; intro e; rw [e] at hs; exact absurd hs (by decide)
  · next hs => simp only [true_iff]; exact Fin.ext (by show s.sp.val = 0; omega)

/-! ### Keys -/

theorem keyIndex_eq_some {b : Byte} {k : Fin 16} : keyIndex b = some k ↔ b.toNat = k.val := by
  simp only [keyIndex]; split
  · simp [Fin.ext_iff]
  · simp only [reduceCtorEq, false_iff]; omega

theorem keyIndex_eq_none {b : Byte} : keyIndex b = none ↔ 16 ≤ b.toNat := by
  simp only [keyIndex]; split <;> simp <;> omega

theorem mem_downKeys {key : Vector Bool 16} {k : Fin 16} : k ∈ downKeys key ↔ key[k.val] = true := by
  simp [downKeys]

/-- Whatever the free pick is, the key chosen is one of those that are down. -/
theorem chosenKey_mem (n : Nat) (k : Fin 16) (ks : List (Fin 16)) : chosenKey n k ks ∈ k :: ks := by
  have h : Config.waitKeyPick n % (ks.length + 1) < (k :: ks).length := by
    simpa using Nat.mod_lt _ (Nat.succ_pos ks.length)
  simp only [chosenKey, List.getElem?_eq_getElem h, Option.getD_some]
  exact List.getElem_mem h

/-! ### Display -/

theorem Display.pixel_flip (d : Display) (p q : Nat) :
    Display.pixel (Display.flip d p) q = (Display.pixel d q ^^ (decide (p = q) && decide (p < 2048))) := by
  by_cases hp : p < 2048
  · by_cases hq : q < 2048
    · have hm : q % 64 < 64 := Nat.mod_lt _ (by decide)
      by_cases hr : p / 64 = q / 64
      · have hpq : decide (p % 64 = q % 64) = decide (p = q) := by
          simp only [decide_eq_decide]; constructor
          · intro h; rw [← Nat.div_add_mod p 64, ← Nat.div_add_mod q 64, hr, h]
          · rintro rfl; rfl
        simp [Display.pixel, Display.flip, hp, hq, hr, hm, ← hpq, eq_comm]
      · have hpq : p ≠ q := fun h => hr (by rw [h])
        simp [Display.pixel, Display.flip, hp, hq, hr, hpq]
    · have hpq : p ≠ q := by omega
      simp [Display.pixel, hq, hpq]
  · simp [Display.flip, hp]

@[simp] theorem Display.pixel_clear (p : Nat) : Display.pixel Display.clear p = false := by
  simp [Display.pixel, Display.clear]

theorem Display.pixel_of_ge (d : Display) {p : Nat} (h : 2048 ≤ p) : Display.pixel d p = false := by
  simp [Display.pixel, Nat.not_lt.mpr h]

/-- Two displays with the same pixels are the same display. -/
theorem Display.ext_pixel {d e : Display} (h : ∀ p < 2048, Display.pixel d p = Display.pixel e p) : d = e := by
  apply Vector.ext
  intro i hi
  apply BitVec.eq_of_getLsbD_eq
  intro j hj
  have hp : i * 64 + j < 2048 := by omega
  have h1 : (i * 64 + j) / 64 = i := by omega
  have h2 : (i * 64 + j) % 64 = j := by omega
  have := h (i * 64 + j) hp
  simpa [Display.pixel, hp, h1, h2] using this

theorem drawTargets_nil (d : Display) : drawTargets d [] = (d, false) := rfl

theorem plot_fst (acc : Display × Bool) (p : Nat) : (plot acc p).1 = Display.flip acc.1 p := rfl
theorem plot_snd (acc : Display × Bool) (p : Nat) : (plot acc p).2 = (acc.2 || Display.pixel acc.1 p) := rfl

end Sys2Proof.Machine
end

