-- ==== Sys2Proof/Laws/Display.lean ====
section
/-! SUPPORT. Laws/Display.lean: which pixels a sprite targets (R121), that they are all distinct (R122), and what XORing a
list of targets does to the display (R122, R124, R125). -/

namespace Sys2Proof.Machine

theorem mem_rowTargets {cx cy r p : Nat} {row : Byte} :
    p ∈ rowTargets cx cy r row ↔ ∃ c, c < 8 ∧ row.getLsbD (7 - c) = true ∧ p = cx + c + (cy + r) * 64 := by
  simp only [rowTargets, List.mem_map, List.mem_filter, List.mem_range, spritePixel]
  constructor
  · rintro ⟨c, ⟨hc, hb⟩, rfl⟩; exact ⟨c, hc, hb, rfl⟩
  · rintro ⟨c, hc, hb, rfl⟩; exact ⟨c, ⟨hc, hb⟩, rfl⟩

/-- The targets of a sprite whose first row is row `r`. -/
theorem mem_spriteTargets {cx cy p : Nat} (rows : List Byte) (r : Nat) :
    p ∈ spriteTargets cx cy r rows ↔
      ∃ (k c : Nat) (row : Byte), rows[k]? = some row ∧ c < 8 ∧ row.getLsbD (7 - c) = true ∧
        p = cx + c + (cy + (r + k)) * 64 := by
  induction rows generalizing r with
  | nil => simp [spriteTargets]
  | cons row rows ih =>
    simp only [spriteTargets, List.mem_append, mem_rowTargets, ih]
    constructor
    · rintro (⟨c, hc, hb, rfl⟩ | ⟨k, c, row', hk, hc, hb, rfl⟩)
      · exact ⟨0, c, row, rfl, hc, hb, rfl⟩
      · exact ⟨k + 1, c, row', hk, hc, hb, by rw [Nat.add_right_comm r 1 k, Nat.add_assoc r k 1]⟩
    · rintro ⟨k, c, row', hk, hc, hb, rfl⟩
      cases k with
      | zero =>
        simp only [List.getElem?_cons_zero, Option.some.injEq] at hk
        subst hk; exact .inl ⟨c, hc, hb, rfl⟩
      | succ k => exact .inr ⟨k, c, row', hk, hc, hb, by rw [Nat.add_right_comm r 1 k, Nat.add_assoc r k 1]⟩

/-- DRW's targets are the pixels its sprite hits (R121). -/
theorem mem_drawnPixels {s : State} {x y : Reg} {n : BitVec 4} {p : Nat} :
    p ∈ s.drawnPixels x y n ↔ s.spriteHits x y n p := by
  simp only [State.drawnPixels, mem_spriteTargets, Memory.readBytes_getElem?, State.spriteHits, State.getV,
    Nat.zero_add]
  constructor
  · rintro ⟨k, c, row, hk, hc, hb, rfl⟩
    split at hk
    · next hn => simp only [Option.some.injEq] at hk; subst hk; exact ⟨k, c, hn, hc, hb, rfl⟩
    · simp at hk
  · rintro ⟨r, c, hr, hc, hb, rfl⟩
    exact ⟨r, c, _, if_pos hr, hc, hb, rfl⟩

theorem rowTargets_nodup (cx cy r : Nat) (row : Byte) : (rowTargets cx cy r row).Nodup := by
  refine List.Nodup.map_on ?_ (List.nodup_range.filter _)
  intro a _ b _ h
  simp only [spritePixel] at h; omega

/-- The pixels one draw targets are all distinct (R122). -/
theorem spriteTargets_nodup (cx cy r : Nat) (rows : List Byte) : (spriteTargets cx cy r rows).Nodup := by
  induction rows generalizing r with
  | nil => exact List.nodup_nil
  | cons row rows ih =>
    refine List.nodup_append.mpr ⟨rowTargets_nodup cx cy r row, ih (r + 1), ?_⟩
    intro a ha b hb e
    obtain ⟨c, hc, -, rfl⟩ := mem_rowTargets.mp ha
    obtain ⟨k, d, row', -, hd, -, rfl⟩ := (mem_spriteTargets rows (r + 1)).mp hb
    have e' : cx + c + (cy + r) * 64 = cx + d + (cy + (r + 1 + k)) * 64 := e
    have : (cy + (r + 1 + k)) * 64 = (cy + r) * 64 + 64 + k * 64 := by ring
    omega

theorem drawnPixels_nodup (s : State) (x y : Reg) (n : BitVec 4) : (s.drawnPixels x y n).Nodup :=
  spriteTargets_nodup _ _ _ _

/-- XORing distinct targets flips exactly the targeted pixels of the buffer, and the detector reports whether one of
them was on (R122, R124). -/
theorem foldl_plot (targets : List Nat) (h : targets.Nodup) (acc : Display × Bool) :
    (∀ p, p < 2048 → Display.pixel (targets.foldl plot acc).1 p = (Display.pixel acc.1 p ^^ decide (p ∈ targets))) ∧
    ((targets.foldl plot acc).2 = true ↔
      acc.2 = true ∨ ∃ p, p ∈ targets ∧ Display.pixel acc.1 p = true) := by
  induction targets generalizing acc with
  | nil => simp
  | cons q targets ih =>
    obtain ⟨hq, ht⟩ := List.nodup_cons.mp h
    obtain ⟨h1, h2⟩ := ih ht (plot acc q)
    simp only [List.foldl_cons]
    constructor
    · intro p hp
      rw [h1 p hp, plot_fst, Display.pixel_flip]
      by_cases hpq : q = p
      · subst hpq; simp [hq, hp]
      · have hpq' : ¬ p = q := fun e => hpq e.symm
        simp [hpq, hpq']
    · rw [h2, plot_snd]
      have unflipped : ∀ p ∈ targets, Display.pixel (plot acc q).1 p = Display.pixel acc.1 p := by
        intro p hp
        have hpq : ¬ q = p := fun e => hq (e ▸ hp)
        simp [plot_fst, Display.pixel_flip, hpq]
      constructor
      · rintro (ha | ⟨p, hp, hon⟩)
        · rcases Bool.or_eq_true _ _ ▸ ha with ha | ha
          · exact .inl ha
          · exact .inr ⟨q, by simp, ha⟩
        · exact .inr ⟨p, by simp [hp], by rw [← unflipped p hp]; exact hon⟩
      · rintro (ha | ⟨p, hp, hon⟩)
        · exact .inl (by simp [ha])
        · rcases List.mem_cons.mp hp with rfl | hp
          · exact .inl (by simp [hon])
          · exact .inr ⟨p, hp, by rw [unflipped p hp]; exact hon⟩

theorem pixel_drawTargets {targets : List Nat} (h : targets.Nodup) (d : Display) {p : Nat} (hp : p < 2048) :
    Display.pixel (drawTargets d targets).1 p = (Display.pixel d p ^^ decide (p ∈ targets)) :=
  (foldl_plot targets h (d, false)).1 p hp

theorem collision_drawTargets {targets : List Nat} (h : targets.Nodup) (d : Display) :
    (drawTargets d targets).2 = true ↔ ∃ p, p ∈ targets ∧ Display.pixel d p = true := by
  simpa [drawTargets] using (foldl_plot targets h (d, false)).2

end Sys2Proof.Machine
end

