-- ==== Sys2Proof/Laws/Step.lean ====
section
/-! SUPPORT. Laws/Step.lean: everything a step can do, said once (R100), and the small laws of operand forms. -/

namespace Sys2Proof.Machine

/-- A tick takes one away, and leaves zero at zero (R216, R217). -/
theorem timerTick_toNat (t : Byte) : (timerTick t).toNat = t.toNat - 1 := by
  unfold timerTick
  split
  · next h => simp [h]
  · next h =>
    have h0 : t.toNat ≠ 0 := fun e => h (BitVec.eq_of_toNat_eq (by simpa using e))
    have := t.isLt
    rw [BitVec.toNat_sub]
    simp
    omega

theorem addressImmediate_eq (nnn : BitVec 12) : addressImmediate nnn = 0x0#4 ++ nnn := by
  refine BitVec.eq_of_getLsbD_eq fun i hi => ?_
  simp only [addressImmediate, BitVec.getLsbD_append, BitVec.getLsbD_setWidth]
  interval_cases i <;> simp

@[simp] theorem addressImmediate_toNat (nnn : BitVec 12) : (addressImmediate nnn).toNat = nnn.toNat := by
  have := nnn.isLt
  simp only [addressImmediate, BitVec.toNat_setWidth]; omega

@[simp] theorem glyphAddress_toNat (b : Byte) : (glyphAddress b).toNat = b.toNat * 5 := by
  have := b.isLt
  simp only [glyphAddress, BitVec.toNat_ofNat]; omega

theorem fetchable_iff {s : State} : s.fetchable = true ↔ 0x200 ≤ s.pc.toNat ∧ s.pc.toNat ≤ 0xFFE := by
  simp [State.fetchable]

/-- With the latch set, a step changes nothing (R109). -/
theorem step_halted {s : State} {f : FaultRecord} (h : s.fault = some f) : step s = .next s := by
  simp [step, engineStep, h]

/-- A step that answers a next state was halted, found pc out of range, found an illegal word, or ran the decoded
instruction (R100). -/
theorem step_cases {s t : State} (h : step s = .next t) :
    (s.fault.isSome = true ∧ t = s) ∨
    (s.fault = none ∧ s.fetchable = false ∧ t = s.latch .pcOutOfRange none .none) ∨
    (s.fault = none ∧ s.fetchable = true ∧ (∃ e, decode s.fetchWord = .error e) ∧
      t = s.latch .illegalInstruction (some s.fetchWord) .none) ∨
    (s.fault = none ∧ s.fetchable = true ∧ ∃ i, decode s.fetchWord = .ok i ∧ exec i s = .next t) := by
  simp only [step, engineStep] at h
  split at h
  · next hf => exact .inl ⟨by simp [hf], (Host.Outcome.next.inj h).symm⟩
  · next hf =>
    split at h
    · next hp =>
      split at h
      · next i hi => exact .inr (.inr (.inr ⟨hf, hp, i, hi, h⟩))
      · next e he => exact .inr (.inr (.inl ⟨hf, hp, ⟨e, he⟩, (Host.Outcome.next.inj h).symm⟩))
    · next hp => exact .inr (.inl ⟨hf, by simpa using hp, (Host.Outcome.next.inj h).symm⟩)

end Sys2Proof.Machine
end

