-- ==== Sys2Proof/Laws/Exec.lean ====
section
/-! SUPPORT. Laws/Exec.lean: every instruction, said once, as "its check, then its effect": `exec` raises `failureOf` when
there is one and otherwise answers `effectOf` (R105, R107, R233). Whole-machine rules follow by cases on the two. -/

namespace Sys2Proof.Machine

/-- The fault an instruction raises in a state, none when it completes. -/
def failureOf (i : Instr) (s : State) : Option Raise :=
  match i with
  | .ret => if s.sp = 0 then some ⟨.stackUnderflow, .none⟩ else none
  | .callNnn _ => if s.sp = 16 then some ⟨.stackOverflow, .none⟩ else none
  | .skpVx x | .sknpVx x => if 16 ≤ (s.getV x).toNat then some ⟨.keyIndexRange, .none⟩ else none
  | .addVxVy x y => flagOperandFailure (.addVxVy x y)
  | .subVxVy x y => flagOperandFailure (.subVxVy x y)
  | .subnVxVy x y => flagOperandFailure (.subnVxVy x y)
  | .shrVx x y => flagOperandFailure (.shrVx x y)
  | .shlVx x y => flagOperandFailure (.shlVx x y)
  | .drwVxVyN x y n => (flagOperandFailure (.drwVxVyN x y n)).or (firstFailure readCheck s.I n.toNat)
  | .ldBVx _ => firstFailure writeCheck s.I 3
  | .ldMemVx x => firstFailure writeCheck s.I (x.val + 1)
  | .ldVxMem x => firstFailure readCheck s.I (x.val + 1)
  | .cls | .jpNnn _ | .seVxNn _ _ | .sneVxNn _ _ | .seVxVy _ _ | .ldVxNn _ _ | .addVxNn _ _ | .ldVxVy _ _
  | .orVxVy _ _ | .andVxVy _ _ | .xorVxVy _ _ | .sneVxVy _ _ | .ldINnn _ | .jpV0Nnn _ | .rndVxNn _ _ | .ldVxDt _
  | .ldVxK _ | .ldDtVx _ | .ldStVx _ | .addIVx _ | .ldFVx _ => none

/-- The next state with the default advance. -/
def State.advanced (s : State) : State := { s with pc := s.pc + 2 }

/-- The next state of a skip. -/
def State.skipped (s : State) (c : Bool) : State := { s with pc := if c then s.pc + 4 else s.pc + 2 }

/-- The next state of an instruction that completes. -/
def effectOf (i : Instr) (s : State) : State :=
  match i with
  | .cls => { s with disp := Display.clear, pc := s.pc + 2 }
  | .ret => s.pop.elim s fun r => { r.2 with pc := r.1 + 2 }
  | .jpNnn nnn => { s with pc := addressImmediate nnn }
  | .callNnn nnn => (s.push s.pc).elim s fun r => { r with pc := addressImmediate nnn }
  | .seVxNn x nn => s.skipped (s.getV x == nn)
  | .sneVxNn x nn => s.skipped (s.getV x != nn)
  | .seVxVy x y => s.skipped (s.getV x == s.getV y)
  | .sneVxVy x y => s.skipped (s.getV x != s.getV y)
  | .ldVxNn x nn => (s.setV x nn).advanced
  | .addVxNn x nn => (s.setV x (s.getV x + nn)).advanced
  | .ldVxVy x y => (s.setV x (s.getV y)).advanced
  | .orVxVy x y => (s.setV x (s.getV x ||| s.getV y)).advanced
  | .andVxVy x y => (s.setV x (s.getV x &&& s.getV y)).advanced
  | .xorVxVy x y => (s.setV x (s.getV x ^^^ s.getV y)).advanced
  | .addVxVy x y => (s.setVFlag x (s.getV x + s.getV y) (carryFlag (s.getV x) (s.getV y))).advanced
  | .subVxVy x y => (s.setVFlag x (s.getV x - s.getV y) (subFlag (s.getV x) (s.getV y))).advanced
  | .shrVx x _ => (s.setVFlag x (s.getV x >>> 1) (shrFlag (s.getV x))).advanced
  | .subnVxVy x y => (s.setVFlag x (s.getV y - s.getV x) (subnFlag (s.getV x) (s.getV y))).advanced
  | .shlVx x _ => (s.setVFlag x (s.getV x <<< 1) (shlFlag (s.getV x))).advanced
  | .ldINnn nnn => (s.setI (addressImmediate nnn)).advanced
  | .jpV0Nnn nnn => { s with pc := addressImmediate nnn + (s.getV 0).zeroExtend 16 }
  | .rndVxNn x nn => ((s.setV x (Config.randomByte s.draws &&& nn)).countDraw).advanced
  | .drwVxVyN x y n => (s.draw (s.drawnPixels x y n)).advanced
  | .skpVx x => (keyIndex (s.getV x)).elim s fun k => s.skipped s.key[k.val]
  | .sknpVx x => (keyIndex (s.getV x)).elim s fun k => s.skipped (!s.key[k.val])
  | .ldVxDt x => (s.setV x s.DT).advanced
  | .ldVxK x =>
    match downKeys s.key with
    | [] => s
    | k :: ks => ((s.setV x (BitVec.ofNat 8 (chosenKey s.draws k ks).val)).countDraw).advanced
  | .ldDtVx x => { s with DT := s.getV x, pc := s.pc + 2 }
  | .ldStVx x => { s with ST := s.getV x, pc := s.pc + 2 }
  | .addIVx x => (s.setI (s.I + (s.getV x).zeroExtend 16)).advanced
  | .ldFVx x => (s.setI (glyphAddress (s.getV x))).advanced
  | .ldBVx x => (s.store (effectiveAddress s.I 0) (bcdDigits (s.getV x))).advanced
  | .ldMemVx x => (s.store (effectiveAddress s.I 0) (s.firstRegs x)).advanced
  | .ldVxMem x => (s.setFirst (Memory.readBytes s.mem (effectiveAddress s.I 0) (x.val + 1))).advanced

theorem unlessRaised_next (i : Instr) (s t : State) (f : Option Raise) :
    unlessRaised i s f (.next t) = (match f with | some r => raise i s r | none => .next t) := by
  cases f <;> rfl

/-- Every instruction raises its failure, or has its effect. -/
theorem exec_eq (i : Instr) (s : State) :
    exec i s = (match failureOf i s with | some r => raise i s r | none => .next (effectOf i s)) := by
  cases i with
  | ret =>
    by_cases h : s.sp = 0
    · simp [exec, execRet, failureOf, State.pop_eq_none.mpr h, h]
    · cases hp : s.pop with
      | none => exact absurd (State.pop_eq_none.mp hp) h
      | some r => simp [exec, execRet, failureOf, effectOf, hp, h, jumpTo]
  | callNnn nnn =>
    by_cases h : s.sp = 16
    · simp [exec, execCallNnn, failureOf, State.push_eq_none.mpr h, h]
    · cases hp : s.push s.pc with
      | none => exact absurd (State.push_eq_none.mp hp) h
      | some r => simp [exec, execCallNnn, failureOf, effectOf, hp, h, jumpTo]
  | skpVx x =>
    cases hk : keyIndex (s.getV x) with
    | none => simp [exec, execSkpVx, failureOf, hk, keyIndex_eq_none.mp hk]
    | some k =>
      have := keyIndex_eq_some.mp hk
      have : ¬ 16 ≤ (s.getV x).toNat := by omega
      simp [exec, execSkpVx, failureOf, effectOf, hk, this, skipIf, jumpTo, State.skipped]
  | sknpVx x =>
    cases hk : keyIndex (s.getV x) with
    | none => simp [exec, execSknpVx, failureOf, hk, keyIndex_eq_none.mp hk]
    | some k =>
      have := keyIndex_eq_some.mp hk
      have : ¬ 16 ≤ (s.getV x).toNat := by omega
      simp [exec, execSknpVx, failureOf, effectOf, hk, this, skipIf, jumpTo, State.skipped]
  | ldVxK x =>
    simp only [exec, execLdVxK, failureOf, effectOf]
    cases downKeys s.key <;> rfl
  | drwVxVyN x y n =>
    simp only [exec, execDrwVxVyN, failureOf]
    cases flagOperandFailure (.drwVxVyN x y n) with
    | some r => rfl
    | none => exact unlessRaised_next _ _ _ _
  | addVxVy x y | subVxVy x y | subnVxVy x y | shrVx x y | shlVx x y => exact unlessRaised_next _ _ _ _
  | ldBVx x | ldMemVx x | ldVxMem x => exact unlessRaised_next _ _ _ _
  | cls | jpNnn _ | seVxNn _ _ | sneVxNn _ _ | seVxVy _ _ | ldVxNn _ _ | addVxNn _ _ | ldVxVy _ _ | orVxVy _ _
  | andVxVy _ _ | xorVxVy _ _ | sneVxVy _ _ | ldINnn _ | jpV0Nnn _ | rndVxNn _ _ | ldVxDt _ | ldDtVx _ | ldStVx _
  | addIVx _ | ldFVx _ => rfl

/-- What an instruction can do: raise its failure, the latch alone changing, or have its effect. -/
theorem exec_cases {i : Instr} {s t : State} (h : exec i s = .next t) :
    (∃ r, failureOf i s = some r ∧ t = s.latch r.cause (some (encode i)) r.info) ∨
      (failureOf i s = none ∧ t = effectOf i s) := by
  rw [exec_eq] at h
  cases hf : failureOf i s with
  | some r => rw [hf] at h; exact .inl ⟨r, rfl, (Host.Outcome.next.inj h).symm⟩
  | none => rw [hf] at h; exact .inr ⟨rfl, (Host.Outcome.next.inj h).symm⟩

/-- CALL that completes: the entry at sp gets pc, sp rises, pc is the target (R142). -/
theorem effectOf_callNnn {nnn : BitVec 12} {s : State} (h : failureOf (.callNnn nnn) s = none) :
    ∃ hs : s.sp.val < 16, effectOf (.callNnn nnn) s =
      { s with stack := s.stack.set s.sp.val s.pc, sp := ⟨s.sp.val + 1, Nat.succ_lt_succ hs⟩, pc := addressImmediate nnn } := by
  have hne : s.push s.pc ≠ none := by
    simp only [failureOf, ite_eq_right_iff, reduceCtorEq, imp_false] at h
    exact fun e => h (State.push_eq_none.mp e)
  cases hp : s.push s.pc with
  | none => exact absurd hp hne
  | some r => obtain ⟨hs, rfl⟩ := State.push_eq_some hp; exact ⟨hs, by simp [effectOf, hp]⟩

/-- RET that completes: sp falls, pc is the popped entry plus 2 (R140). -/
theorem effectOf_ret {s : State} (h : failureOf .ret s = none) :
    ∃ hs : 0 < s.sp.val, effectOf .ret s =
      { s with pc := s.stack[s.sp.val - 1] + 2, sp := ⟨s.sp.val - 1, Nat.lt_of_le_of_lt (Nat.sub_le _ _) s.sp.isLt⟩ } := by
  have hne : s.pop ≠ none := by
    simp only [failureOf, ite_eq_right_iff, reduceCtorEq, imp_false] at h
    exact fun e => h (State.pop_eq_none.mp e)
  cases hp : s.pop with
  | none => exact absurd hp hne
  | some r =>
    obtain ⟨a, t⟩ := r
    obtain ⟨hs, h1, rfl⟩ := State.pop_eq_some hp
    subst h1; exact ⟨hs, by simp [effectOf, hp]⟩

/-- A key skip that completes names a key (R210, R211). -/
theorem keyIndex_of_completes {x : Reg} {s : State} (h : failureOf (.skpVx x) s = none) :
    ∃ k, keyIndex (s.getV x) = some k := by
  cases hk : keyIndex (s.getV x) with
  | none => simp [failureOf, keyIndex_eq_none.mp hk] at h
  | some k => exact ⟨k, rfl⟩

/-- An instruction that completes leaves the latch as it was. -/
theorem effectOf_fault {i : Instr} {s : State} (h : failureOf i s = none) : (effectOf i s).fault = s.fault := by
  cases i with
  | ret => obtain ⟨_, e⟩ := effectOf_ret h; rw [e]
  | callNnn nnn => obtain ⟨_, e⟩ := effectOf_callNnn h; rw [e]
  | skpVx x => obtain ⟨k, e⟩ := keyIndex_of_completes h; simp [effectOf, e, State.skipped]
  | sknpVx x => obtain ⟨k, e⟩ := keyIndex_of_completes (x := x) h; simp [effectOf, e, State.skipped]
  | ldVxK x => simp only [effectOf]; split <;> rfl
  | _ => rfl

end Sys2Proof.Machine
end

