-- ==== Sys2Proof/Laws/PerInstr.lean ====
section
/-! SUPPORT. Laws/PerInstr.lean: the family OpcodeRow, one lemma per instruction: the word the encoder makes matches the
instruction's row of the opcode map, `w AND mask = match` (R80, R81). -/

namespace Sys2Proof.Laws.OpcodeRow

/-- The `mask` and `match` of an instruction's row (spec/opcode_table.json, R81). -/
def row (i : Instr) : Word × Word :=
  match i with
  | .cls => (0xFFFF#16, 0x00E0#16)
  | .ret => (0xFFFF#16, 0x00EE#16)
  | .jpNnn _ => (0xF000#16, 0x1000#16)
  | .callNnn _ => (0xF000#16, 0x2000#16)
  | .seVxNn _ _ => (0xF000#16, 0x3000#16)
  | .sneVxNn _ _ => (0xF000#16, 0x4000#16)
  | .seVxVy _ _ => (0xF00F#16, 0x5000#16)
  | .ldVxNn _ _ => (0xF000#16, 0x6000#16)
  | .addVxNn _ _ => (0xF000#16, 0x7000#16)
  | .ldVxVy _ _ => (0xF00F#16, 0x8000#16)
  | .orVxVy _ _ => (0xF00F#16, 0x8001#16)
  | .andVxVy _ _ => (0xF00F#16, 0x8002#16)
  | .xorVxVy _ _ => (0xF00F#16, 0x8003#16)
  | .addVxVy _ _ => (0xF00F#16, 0x8004#16)
  | .subVxVy _ _ => (0xF00F#16, 0x8005#16)
  | .shrVx _ _ => (0xF00F#16, 0x8006#16)
  | .subnVxVy _ _ => (0xF00F#16, 0x8007#16)
  | .shlVx _ _ => (0xF00F#16, 0x800E#16)
  | .sneVxVy _ _ => (0xF00F#16, 0x9000#16)
  | .ldINnn _ => (0xF000#16, 0xA000#16)
  | .jpV0Nnn _ => (0xF000#16, 0xB000#16)
  | .rndVxNn _ _ => (0xF000#16, 0xC000#16)
  | .drwVxVyN _ _ _ => (0xF000#16, 0xD000#16)
  | .skpVx _ => (0xF0FF#16, 0xE09E#16)
  | .sknpVx _ => (0xF0FF#16, 0xE0A1#16)
  | .ldVxDt _ => (0xF0FF#16, 0xF007#16)
  | .ldVxK _ => (0xF0FF#16, 0xF00A#16)
  | .ldDtVx _ => (0xF0FF#16, 0xF015#16)
  | .ldStVx _ => (0xF0FF#16, 0xF018#16)
  | .addIVx _ => (0xF0FF#16, 0xF01E#16)
  | .ldFVx _ => (0xF0FF#16, 0xF029#16)
  | .ldBVx _ => (0xF0FF#16, 0xF033#16)
  | .ldMemVx _ => (0xF0FF#16, 0xF055#16)
  | .ldVxMem _ => (0xF0FF#16, 0xF065#16)

/-- The encoded word matches its row. -/
def Statement (i : Instr) : Prop := encode i &&& (row i).1 = (row i).2

/-! The masks of R81, one lemma per format. -/

theorem mask_nnn (op : BitVec 4) (nnn : BitVec 12) : (op ++ nnn : Word) &&& 0xF000#16 = op ++ 0#12 := by
  refine BitVec.eq_of_getLsbD_eq fun i hi => ?_
  simp only [BitVec.getLsbD_and, BitVec.getLsbD_append]
  interval_cases i <;> simp

theorem mask_xnn (op x : BitVec 4) (nn : Byte) : (op ++ x ++ nn : Word) &&& 0xF000#16 = op ++ 0#12 := by
  refine BitVec.eq_of_getLsbD_eq fun i hi => ?_
  simp only [BitVec.getLsbD_and, BitVec.getLsbD_append]
  interval_cases i <;> simp

theorem mask_x (op x : BitVec 4) (nn : Byte) : (op ++ x ++ nn : Word) &&& 0xF0FF#16 = op ++ 0#4 ++ nn := by
  refine BitVec.eq_of_getLsbD_eq fun i hi => ?_
  simp only [BitVec.getLsbD_and, BitVec.getLsbD_append]
  interval_cases i <;> simp

theorem mask_xy (op x y n : BitVec 4) : (op ++ x ++ y ++ n : Word) &&& 0xF00F#16 = op ++ 0#4 ++ 0#4 ++ n := by
  refine BitVec.eq_of_getLsbD_eq fun i hi => ?_
  simp only [BitVec.getLsbD_and, BitVec.getLsbD_append]
  interval_cases i <;> simp

theorem mask_xyn (op x y n : BitVec 4) : (op ++ x ++ y ++ n : Word) &&& 0xF000#16 = op ++ 0#12 := by
  refine BitVec.eq_of_getLsbD_eq fun i hi => ?_
  simp only [BitVec.getLsbD_and, BitVec.getLsbD_append]
  interval_cases i <;> simp

theorem cls : Statement .cls := rfl

theorem ret : Statement .ret := rfl

theorem jpNnn (nnn : BitVec 12) : Statement (.jpNnn nnn) := mask_nnn _ _

theorem callNnn (nnn : BitVec 12) : Statement (.callNnn nnn) := mask_nnn _ _

theorem seVxNn (x : Reg) (nn : Byte) : Statement (.seVxNn x nn) := mask_xnn _ _ _

theorem sneVxNn (x : Reg) (nn : Byte) : Statement (.sneVxNn x nn) := mask_xnn _ _ _

theorem seVxVy (x : Reg) (y : Reg) : Statement (.seVxVy x y) := mask_xy _ _ _ _

theorem ldVxNn (x : Reg) (nn : Byte) : Statement (.ldVxNn x nn) := mask_xnn _ _ _

theorem addVxNn (x : Reg) (nn : Byte) : Statement (.addVxNn x nn) := mask_xnn _ _ _

theorem ldVxVy (x : Reg) (y : Reg) : Statement (.ldVxVy x y) := mask_xy _ _ _ _

theorem orVxVy (x : Reg) (y : Reg) : Statement (.orVxVy x y) := mask_xy _ _ _ _

theorem andVxVy (x : Reg) (y : Reg) : Statement (.andVxVy x y) := mask_xy _ _ _ _

theorem xorVxVy (x : Reg) (y : Reg) : Statement (.xorVxVy x y) := mask_xy _ _ _ _

theorem addVxVy (x : Reg) (y : Reg) : Statement (.addVxVy x y) := mask_xy _ _ _ _

theorem subVxVy (x : Reg) (y : Reg) : Statement (.subVxVy x y) := mask_xy _ _ _ _

theorem shrVx (x : Reg) (y : Reg) : Statement (.shrVx x y) := mask_xy _ _ _ _

theorem subnVxVy (x : Reg) (y : Reg) : Statement (.subnVxVy x y) := mask_xy _ _ _ _

theorem shlVx (x : Reg) (y : Reg) : Statement (.shlVx x y) := mask_xy _ _ _ _

theorem sneVxVy (x : Reg) (y : Reg) : Statement (.sneVxVy x y) := mask_xy _ _ _ _

theorem ldINnn (nnn : BitVec 12) : Statement (.ldINnn nnn) := mask_nnn _ _

theorem jpV0Nnn (nnn : BitVec 12) : Statement (.jpV0Nnn nnn) := mask_nnn _ _

theorem rndVxNn (x : Reg) (nn : Byte) : Statement (.rndVxNn x nn) := mask_xnn _ _ _

theorem drwVxVyN (x : Reg) (y : Reg) (n : BitVec 4) : Statement (.drwVxVyN x y n) := mask_xyn _ _ _ _

theorem skpVx (x : Reg) : Statement (.skpVx x) := mask_x _ _ _

theorem sknpVx (x : Reg) : Statement (.sknpVx x) := mask_x _ _ _

theorem ldVxDt (x : Reg) : Statement (.ldVxDt x) := mask_x _ _ _

theorem ldVxK (x : Reg) : Statement (.ldVxK x) := mask_x _ _ _

theorem ldDtVx (x : Reg) : Statement (.ldDtVx x) := mask_x _ _ _

theorem ldStVx (x : Reg) : Statement (.ldStVx x) := mask_x _ _ _

theorem addIVx (x : Reg) : Statement (.addIVx x) := mask_x _ _ _

theorem ldFVx (x : Reg) : Statement (.ldFVx x) := mask_x _ _ _

theorem ldBVx (x : Reg) : Statement (.ldBVx x) := mask_x _ _ _

theorem ldMemVx (x : Reg) : Statement (.ldMemVx x) := mask_x _ _ _

theorem ldVxMem (x : Reg) : Statement (.ldVxMem x) := mask_x _ _ _

end Sys2Proof.Laws.OpcodeRow
end

