-- ==== Sys2Proof/Tests/Slice0.lean ====
section
/-! SUPPORT. Tests/Slice0.lean: the model's own tests. Expected values are those of spec/95_test_vectors.md, whose ids (E1,
T3, A10, ...) stand beside each test, or are worked out by hand from the rule named. Then, for each statement with
hypotheses, a state and operands that meet them together. -/

namespace Sys2Proof.Tests

open Sys2Proof Sys2Proof.Machine

/-! ### Helpers -/

/-- Reset with some registers set. -/
def regs (l : List (Reg × Byte)) : State := l.foldl (fun s p => s.setV p.1 p.2) State.reset

/-- The state after one step that fetches the word `w` at pc. -/
def after (s : State) (w : Nat) : Option State :=
  match step (s.withFetchWord 16 w) with
  | .next t => some t
  | .fault _ | .refused _ => none

/-- The latch after one step that fetches `w`. -/
def latchAfter (s : State) (w : Nat) : Option FaultRecord := (after s w).bind (·.fault)

/-- A key latch with one key down. -/
def oneKey (k : Fin 16) : Vector Bool 16 := (Vector.replicate 16 false).set k.val true

/-- A display with one pixel on. -/
def onePixel (p : Nat) : Display := Display.flip Display.clear p

/-! ### Decoding: the words of the patterns of R81, written out bit by bit -/

theorem test_decode_display :
    decode 0b0000000011100000#16 = .ok .cls ∧ decode 0b1101000100101111#16 = .ok (.drwVxVyN 1 2 15) := by decide

theorem test_decode_controlTransfer :
    decode 0b0000000011101110#16 = .ok .ret ∧ decode 0b0001001000110100#16 = .ok (.jpNnn 0x234) ∧
    decode 0b0010001000010000#16 = .ok (.callNnn 0x210) ∧ decode 0b0011001100010000#16 = .ok (.seVxNn 3 0x10) ∧
    decode 0b0100001100010001#16 = .ok (.sneVxNn 3 0x11) ∧ decode 0b0101000100100000#16 = .ok (.seVxVy 1 2) ∧
    decode 0b1001101010110000#16 = .ok (.sneVxVy 10 11) ∧ decode 0b1011001100000000#16 = .ok (.jpV0Nnn 0x300) := by
  decide

theorem test_decode_alu :
    decode 0b0110101001000010#16 = .ok (.ldVxNn 10 0x42) ∧ decode 0b0111000000000011#16 = .ok (.addVxNn 0 3) ∧
    decode 0b1000000000010000#16 = .ok (.ldVxVy 0 1) ∧ decode 0b1000000000010001#16 = .ok (.orVxVy 0 1) ∧
    decode 0b1000000000010010#16 = .ok (.andVxVy 0 1) ∧ decode 0b1000000000010011#16 = .ok (.xorVxVy 0 1) ∧
    decode 0b1000000000010100#16 = .ok (.addVxVy 0 1) ∧ decode 0b1000000000010101#16 = .ok (.subVxVy 0 1) ∧
    decode 0b1000000101100110#16 = .ok (.shrVx 1 6) ∧ decode 0b1000000000010111#16 = .ok (.subnVxVy 0 1) ∧
    decode 0b1000000101101110#16 = .ok (.shlVx 1 6) ∧ decode 0b1100000000001111#16 = .ok (.rndVxNn 0 0x0F) := by
  decide

theorem test_decode_indexMemory :
    decode 0b1010001100000000#16 = .ok (.ldINnn 0x300) ∧ decode 0b1111001000011110#16 = .ok (.addIVx 2) ∧
    decode 0b1111001000101001#16 = .ok (.ldFVx 2) ∧ decode 0b1111001000110011#16 = .ok (.ldBVx 2) ∧
    decode 0b1111001001010101#16 = .ok (.ldMemVx 2) ∧ decode 0b1111001001100101#16 = .ok (.ldVxMem 2) := by decide

theorem test_decode_keysTimers :
    decode 0b1110010110011110#16 = .ok (.skpVx 5) ∧ decode 0b1110010110100001#16 = .ok (.sknpVx 5) ∧
    decode 0b1111001100000111#16 = .ok (.ldVxDt 3) ∧ decode 0b1111001100001010#16 = .ok (.ldVxK 3) ∧
    decode 0b1111001100010101#16 = .ok (.ldDtVx 3) ∧ decode 0b1111001100011000#16 = .ok (.ldStVx 3) := by decide

/-- E6 to E16: words of every illegal set, rejected by name. -/
theorem test_decode_rejects :
    decode 0x0000#16 = .error .family0 ∧ decode 0x0123#16 = .error .family0 ∧ decode 0x01E0#16 = .error .family0 ∧
    decode 0x5121#16 = .error .family5 ∧ decode 0x9ABF#16 = .error .family9 ∧ decode 0x8018#16 = .error .family8 ∧
    decode 0x800F#16 = .error .family8 ∧ decode 0xE09F#16 = .error .familyE ∧ decode 0xF000#16 = .error .familyF ∧
    decode 0xF0FF#16 = .error .familyF ∧ decode 0xFFFF#16 = .error .familyF ∧ decodeBytes [0x60] = .error .truncated := by
  decide

/-- W12: high byte first, two bytes an instruction. -/
theorem test_decodeBytes : decodeBytes [0x6A, 0x42, 0x99] = .ok (.ldVxNn 10 0x42, [0x99]) := by decide

theorem test_decodeTableWord : decodeTableWord 16 0xF365 = some (.ldVxMem 3) ∧ decodeTableWord 16 0x8018 = none := by
  decide

/-- One illegal word for each check of WellFormed.lean, which the check refuses. -/
theorem test_wellFormed_smoke :
    Word.legalFamily0 0x01E0#16 = false ∧ Word.legalRegisterSkip 0x5121#16 = false ∧
    Word.legalRegisterSkip 0x9ABF#16 = false ∧ Word.legalArithmetic 0x8018#16 = false ∧
    Word.legalKeySkip 0xE09F#16 = false ∧ Word.legalMulti 0xF0FF#16 = false ∧
    Word.legal 0x812E#16 = true := by decide

/-! ### Display -/

/-- X1 -/
theorem test_cls : ((after { State.reset with disp := onePixel 2047 } 0x00E0).map fun t => (Display.pixel t.disp 2047, t.pc)) = some (false, 0x202) := by decide

/-- X5: V0 = 62, a full row spills into the next row -/
theorem test_drw_spill : ((after { regs [(0, 62)] with I := 0x300, mem := [(0x300, 0xFF)] } 0xD011).map fun t => (Display.pixel t.disp 62, Display.pixel t.disp 69, Display.pixel t.disp 70, t.getV 15)) = some (true, true, false, 0) := by decide

/-- X9 -/
theorem test_drw_collision : ((after { State.reset with I := 0x300, mem := [(0x300, 0xC0)], disp := onePixel 0 } 0xD011).map fun t => (Display.pixel t.disp 0, Display.pixel t.disp 1, t.getV 15)) = some (false, true, 1) := by decide

/-- X12 -/
theorem test_drw_fault : latchAfter { State.reset with I := 0xFFE } 0xD013 = some ⟨.memOutOfRange, 0x200, (some 0xD013), .address 0x1000⟩ := by decide

/-- E27: FLAG_OPERAND before MEM_OUT_OF_RANGE -/
theorem test_drw_flagOperand_first : latchAfter { State.reset with I := 0xFFE } 0xDF15 = some ⟨.flagOperand, 0x200, (some 0xDF15), .none⟩ := by decide

/-- X6: six pixels past the buffer are reported, in order. -/
theorem test_drw_events :
    eventsOf (.drwVxVyN 0 1 1) { regs [(0, 62), (1, 31)] with I := 0x300, mem := [(0x300, 0xFF)] } =
      [.pixelDropped 2048, .pixelDropped 2049, .pixelDropped 2050, .pixelDropped 2051, .pixelDropped 2052,
        .pixelDropped 2053] := by decide

/-! ### Control transfer -/

/-- T1 -/
theorem test_ret : ((after { State.reset with sp := 1, stack := State.reset.stack.set 0 0x204 } 0x00EE).map fun t => (t.pc, t.sp, t.stack[0])) = some (0x206, 0, 0x204) := by decide

/-- T2 -/
theorem test_ret_underflow : latchAfter State.reset 0x00EE = some ⟨.stackUnderflow, 0x200, (some 0x00EE), .none⟩ := by decide

/-- T3 -/
theorem test_jp : ((after State.reset 0x1234).map fun t => t.pc) = some 0x234 := by decide

/-- T8 -/
theorem test_call : ((after { State.reset with sp := 15 } 0x2300).map fun t => (t.pc, t.sp, t.stack[15])) = some (0x300, 16, 0x200) := by decide

/-- T7 -/
theorem test_call_overflow : latchAfter { State.reset with sp := 16 } 0x2300 = some ⟨.stackOverflow, 0x200, (some 0x2300), .none⟩ := by decide

/-- T9 -/
theorem test_se_immediate : ((after (regs [(3, 0x10)]) 0x3310).map fun t => t.pc) = some 0x204 := by decide

/-- T10 -/
theorem test_se_immediate_not : ((after (regs [(3, 0x10)]) 0x3311).map fun t => t.pc) = some 0x202 := by decide

/-- T11 -/
theorem test_sne_immediate : ((after (regs [(3, 0x10)]) 0x4311).map fun t => t.pc) = some 0x204 := by decide

/-- T13 -/
theorem test_se_registers : ((after (regs [(1, 7), (2, 7)]) 0x5120).map fun t => t.pc) = some 0x204 := by decide

/-- T14 -/
theorem test_se_registers_not : ((after (regs [(1, 7), (2, 8)]) 0x5120).map fun t => t.pc) = some 0x202 := by decide

/-- T16 -/
theorem test_sne_registers : ((after (regs [(1, 7), (2, 8)]) 0x9120).map fun t => t.pc) = some 0x204 := by decide

/-- T19 -/
theorem test_jp_v0 : ((after (regs [(0, 0xFF)]) 0xBFFF).map fun t => t.pc) = some 0x10FE := by decide

/-! ### Arithmetic and logic -/

/-- A2: VF as data -/
theorem test_ld_immediate : ((after State.reset 0x6FAA).map fun t => (t.getV 15, t.pc)) = some (0xAA, 0x202) := by decide

/-- A3: no flag -/
theorem test_add_immediate : ((after (regs [(0, 0xFE), (15, 1)]) 0x7003).map fun t => (t.getV 0, t.getV 15)) = some (0x01, 1) := by decide

/-- A5 -/
theorem test_copy : ((after (regs [(1, 9)]) 0x8010).map fun t => (t.getV 0, t.getV 1)) = some (9, 9) := by decide

/-- A6 -/
theorem test_or : ((after (regs [(0, 0x0F), (1, 0xF0), (15, 1)]) 0x8011).map fun t => (t.getV 0, t.getV 15)) = some (0xFF, 1) := by decide

/-- A7 -/
theorem test_and : ((after (regs [(0, 0x3C), (1, 0x0F)]) 0x8012).map fun t => t.getV 0) = some 0x0C := by decide

/-- A8 -/
theorem test_xor : ((after (regs [(0, 0x3C), (1, 0x0F)]) 0x8013).map fun t => t.getV 0) = some 0x33 := by decide

/-- A10 -/
theorem test_add_carry : ((after (regs [(0, 0x80), (1, 0x80)]) 0x8014).map fun t => (t.getV 0, t.getV 15)) = some (0, 1) := by decide

/-- A12 -/
theorem test_add_same_register : ((after (regs [(1, 0x81)]) 0x8114).map fun t => (t.getV 1, t.getV 15)) = some (0x02, 1) := by decide

/-- A14: the flag is strict (C1) -/
theorem test_sub_equal : ((after (regs [(0, 1), (1, 1)]) 0x8015).map fun t => (t.getV 0, t.getV 15)) = some (0, 0) := by decide

/-- A16 -/
theorem test_sub : ((after (regs [(0, 0xFF), (1, 1)]) 0x8015).map fun t => (t.getV 0, t.getV 15)) = some (0xFE, 1) := by decide

/-- A19: y is not read -/
theorem test_shr : ((after (regs [(0, 0x80), (5, 0x33)]) 0x8056).map fun t => (t.getV 0, t.getV 15)) = some (0x40, 0) := by decide

/-- E24 -/
theorem test_shr_flagOperand : latchAfter State.reset 0x8F06 = some ⟨.flagOperand, 0x200, (some 0x8F06), .none⟩ := by decide

/-- A21 -/
theorem test_subn : ((after (regs [(0, 5), (1, 3)]) 0x8017).map fun t => (t.getV 0, t.getV 15)) = some (0xFE, 0) := by decide

/-- A20 -/
theorem test_subn_flag : ((after (regs [(0, 3), (1, 5)]) 0x8017).map fun t => (t.getV 0, t.getV 15)) = some (2, 1) := by decide

/-- A26 -/
theorem test_shl : ((after (regs [(0, 0xFF)]) 0x800E).map fun t => (t.getV 0, t.getV 15)) = some (0xFE, 1) := by decide

/-- R173: the draw is counted and pc advances -/
theorem test_rnd : ((after State.reset 0xC00F).map fun t => (t.pc, t.draws)) = some (0x202, 1) := by decide

/-- A28: a mask of 0 gives 0, whatever the draw. -/
theorem test_rnd_zero_mask : exec (.rndVxNn 0 0) State.reset =
    .next { State.reset with v := State.reset.v.set 0 0, pc := 0x202, draws := 1 } := by
  simp [exec, execRndVxNn, advance, jumpTo, State.countDraw, State.setV, State.reset]

/-! ### Index register and memory -/

/-- M1 -/
theorem test_ld_i : ((after State.reset 0xA300).map fun t => t.I) = some 0x300 := by decide

/-- M4: 16-bit wrap -/
theorem test_add_i : ((after { regs [(0, 1)] with I := 0xFFFF } 0xF01E).map fun t => (t.I, t.getV 15)) = some (0, 0) := by decide

/-- M8 -/
theorem test_ld_f : ((after (regs [(0, 0xFF)]) 0xF029).map fun t => t.I) = some 0x4FB := by decide

/-- W4 -/
theorem test_ld_b : ((after { regs [(0, 234)] with I := 0x300 } 0xF033).map fun t => (Memory.readBytes t.mem 0x2FF 5, t.I)) = some ([0, 2, 3, 4, 0], 0x300) := by decide

/-- M12 -/
theorem test_ld_b_low : latchAfter { regs [(0, 42)] with I := 0x1FF } 0xF033 = some ⟨.lowMemoryWrite, 0x200, (some 0xF033), .address 0x1FF⟩ := by decide

/-- M15 -/
theorem test_ld_mem : ((after { regs [(0, 1), (1, 2), (2, 3), (3, 9)] with I := 0x400 } 0xF255).map fun t => (Memory.readBytes t.mem 0x400 4, t.I)) = some ([1, 2, 3, 0], 0x400) := by decide

/-- M18 -/
theorem test_ld_mem_range : latchAfter { State.reset with I := 0xFF1 } 0xFF55 = some ⟨.memOutOfRange, 0x200, (some 0xFF55), .address 0x1000⟩ := by decide

/-- M20 -/
theorem test_ld_reg : ((after { regs [(3, 0x77)] with I := 0x300, mem := [(0x300, 2), (0x301, 3), (0x302, 4)] } 0xF265).map fun t => (t.getV 0, t.getV 1, t.getV 2, t.getV 3)) = some (2, 3, 4, 0x77) := by decide

/-- M22 -/
theorem test_ld_reg_range : latchAfter { State.reset with I := 0xFFF } 0xF165 = some ⟨.memOutOfRange, 0x200, (some 0xF165), .address 0x1000⟩ := by decide

/-! ### Keys and timers -/

/-- K1 -/
theorem test_skp : ((after { regs [(5, 0x0C)] with key := oneKey 12 } 0xE59E).map fun t => t.pc) = some 0x204 := by decide

/-- K5 -/
theorem test_skp_range : latchAfter (regs [(5, 0x10)]) 0xE59E = some ⟨.keyIndexRange, 0x200, (some 0xE59E), .none⟩ := by decide

/-- K3 -/
theorem test_sknp : ((after (regs [(5, 0x0C)]) 0xE5A1).map fun t => t.pc) = some 0x204 := by decide

/-- K4 -/
theorem test_sknp_down : ((after { regs [(5, 0x0C)] with key := oneKey 12 } 0xE5A1).map fun t => t.pc) = some 0x202 := by decide

/-- K7 -/
theorem test_ld_dt : ((after { State.reset with DT := 0x3C } 0xF307).map fun t => (t.getV 3, t.DT)) = some (0x3C, 0x3C) := by decide

/-- K8 -/
theorem test_wait : ((after State.reset 0xF00A).map fun t => (t.pc, t.getV 0, t.draws)) = some (0x200, 0, 0) := by decide

/-- K9: one key down, so the free choice has one element. -/
theorem test_wait_key : ∃ t, exec (.ldVxK 0) { State.reset with key := oneKey 3 } = .next t ∧ t.getV 0 = 3 ∧
    t.pc = 0x202 := by
  have h : downKeys (oneKey 3) = [3] := by decide
  have hk : chosenKey State.reset.draws 3 [] = 3 := by simp [chosenKey, Nat.mod_one]
  refine ⟨{ State.reset with key := oneKey 3, v := State.reset.v.set 0 3, pc := 0x202, draws := 1 }, ?_, rfl, rfl⟩
  rw [exec, execLdVxK]
  simp only [h, hk]
  rfl

/-- K12 -/
theorem test_set_dt : ((after (regs [(1, 0x3C)]) 0xF115).map fun t => t.DT) = some 0x3C := by decide

/-- K13 -/
theorem test_set_st : ((after (regs [(1, 2)]) 0xF118).map fun t => (t.ST, t.soundActive)) = some (2, true) := by decide

/-! ### The step and the host -/

/-- E1, E2: pc outside the fetch range, no word. -/
theorem test_pc_range :
    latchAfter { State.reset with pc := 0x1FE } 0 = some ⟨.pcOutOfRange, 0x1FE, none, .none⟩ ∧
    latchAfter { State.reset with pc := 0xFFF } 0 = some ⟨.pcOutOfRange, 0xFFF, none, .none⟩ := by decide

/-- E3: pc = 0xFFE executes. -/
theorem test_last_word : ((after { State.reset with pc := 0xFFE } 0x6001).map fun t => (t.getV 0, t.pc)) =
    some (1, 0x1000) := by decide

/-- P7, E18: with no program the first step faults, and the next changes nothing. -/
theorem test_no_program : ∃ t, step State.reset = .next t ∧
    t.fault = some ⟨.illegalInstruction, 0x200, some 0x0000, .none⟩ ∧ step t = .next t := ⟨_, rfl, by decide, rfl⟩

/-- E17: an odd pc is fetched like an even one. -/
theorem test_odd_pc : ((after { State.reset with pc := 0x203 } 0x6042).map fun t => (t.getV 0, t.pc)) =
    some (0x42, 0x205) := by decide

/-- K8, R108: the record of a step that waits. -/
theorem test_record_waiting : stepRecord (State.reset.withFetchWord 16 0xF00A) = some (.waiting 0x200 0xF00A) := by decide

/-- K16, K17: ticks, one decrement a call, none at 0. -/
theorem test_ticks :
    (transact .tickTimers { State.reset with DT := 1 }).1.DT = 0 ∧ (transact .tickTimers State.reset).1.ST = 0 ∧
    (transact .tickDelay (transact .tickDelay { State.reset with DT := 5 }).1).1.DT = 3 := by decide

/-- H4, H5, H9: SetKey and DumpMemory at the edges of their ranges. -/
theorem test_host_edges :
    (transact (.setKey 15 true) State.reset).1.key[15] = true ∧ (transact (.setKey 16 true) State.reset).2 = .refused ∧
    (transact (.dumpMemory 0 4097) State.reset).1.fault = some ⟨.dumpRange, 0x200, none, .bounds 0 4097⟩ ∧
    (transact (.dumpMemory 4096 4096) State.reset).2 = .bytes [] := by decide

/-- E19: after a fault the writing transactions are refused. -/
theorem test_refused_after_fault :
    (transact (.loadProgram [1]) (State.reset.latch .flagOperand none .none)).2 = .refused ∧
    (transact .tickTimers (State.reset.latch .flagOperand none .none)).2 = .refused := by decide

/-- Writing the background value takes the entry out again: equal memories are equal lists. -/
theorem test_memory_canonical :
    Memory.write (Memory.write [] 0x300 5) 0x300 0 = [] ∧
    Memory.write (Memory.write [] 0x301 1) 0x300 2 = [(0x300, 2), (0x301, 1)] := by decide

/-! ### Witnesses: states and operands that meet the statements' hypotheses -/

/-- `LD V0, 01` at 0x200. -/
def loaded : State := { State.reset with mem := [(0x200, 0x60), (0x201, 0x01)] }

theorem loaded_inv : loaded.Inv :=
  ⟨by decide, by decide, by decide, fun k hk => absurd hk (Nat.not_lt_zero _), fun f hf => by cases hf⟩

theorem witness_EncodeInvertsDecode : decode 0x812E#16 = .ok (.shlVx 1 2) := by decide

theorem witness_StepRunsTheDecodedInstruction :
    loaded.fault = none ∧ 0x200 ≤ loaded.pc.toNat ∧ loaded.pc.toNat ≤ 0xFFE ∧
    decode (Memory.read loaded.mem loaded.pc.toNat ++ Memory.read loaded.mem (loaded.pc.toNat + 1)) =
      .ok (.ldVxNn 0 1) := by decide

theorem witness_StepOutsideFetchRangeFaults :
    ({ State.reset with pc := 0x1FF } : State).fault = none ∧ ({ State.reset with pc := 0x1FF } : State).pc.toNat < 0x200 ∧
    0xFFF ≤ ({ State.reset with pc := 0xFFF } : State).pc.toNat := by decide

theorem witness_IllegalWordFaults :
    State.reset.fault = none ∧ 0x200 ≤ State.reset.pc.toNat ∧ State.reset.pc.toNat ≤ 0xFFE ∧
    (0x0000#16 = Memory.read State.reset.mem State.reset.pc.toNat ++
      Memory.read State.reset.mem (State.reset.pc.toNat + 1)) ∧ Word.legal 0x0000#16 = false := by decide

theorem witness_FaultingStepWritesOnlyTheLatch : ∃ t f, State.reset.fault = none ∧ step State.reset = .next t ∧
    t.fault = some f := ⟨_, _, rfl, rfl, rfl⟩

/-- Each of the six causes an instruction raises. -/
theorem witness_EachCauseComesFromItsInstructions :
    (∃ t, exec (.callNnn 0x300) { State.reset with sp := 16 } = .next t ∧ (t.fault.map (·.cause)) = some .stackOverflow) ∧
    (∃ t, exec .ret State.reset = .next t ∧ (t.fault.map (·.cause)) = some .stackUnderflow) ∧
    (∃ t, exec (.ldVxMem 1) { State.reset with I := 0xFFF } = .next t ∧ (t.fault.map (·.cause)) = some .memOutOfRange) ∧
    (∃ t, exec (.ldBVx 0) { State.reset with I := 0x1FF } = .next t ∧ (t.fault.map (·.cause)) = some .lowMemoryWrite) ∧
    (∃ t, exec (.shlVx 15 0) State.reset = .next t ∧ (t.fault.map (·.cause)) = some .flagOperand) ∧
    (∃ t, exec (.skpVx 0) (regs [(0, 16)]) = .next t ∧ (t.fault.map (·.cause)) = some .keyIndexRange) :=
  ⟨⟨_, rfl, by decide⟩, ⟨_, rfl, by decide⟩, ⟨_, rfl, by decide⟩, ⟨_, rfl, by decide⟩, ⟨_, rfl, by decide⟩,
    ⟨_, rfl, by decide⟩⟩

theorem witness_StepKeepsTheInvariant : ∃ t, loaded.Inv ∧ step loaded = .next t ∧ t.getV 0 = 1 :=
  ⟨_, loaded_inv, rfl, by decide⟩

theorem witness_TransactionsKeepTheInvariant : loaded.Inv ∧ (transact (.loadProgram [0x12]) loaded).2 = .done :=
  ⟨loaded_inv, by decide⟩

theorem witness_OnlyResetWritesLowMemory : Transaction.step ≠ .reset ∧ 0x1FF < 0x200 := by decide

theorem witness_HaltedBlockIsFrozen : (State.reset.latch .dumpRange none (.bounds 0 4097)).fault =
    some ⟨.dumpRange, 0x200, none, .bounds 0 4097⟩ ∧ Transaction.tickDelay ≠ .reset := by decide

theorem witness_OnlyClearAndDrawWriteTheDisplay :
    (∃ t, exec .cls { State.reset with disp := onePixel 5 } = .next t ∧ t.disp ≠ onePixel 5) ∧
    ∃ t, exec (.drwVxVyN 0 1 1) { State.reset with I := 0x300, mem := [(0x300, 0x80)] } = .next t ∧
      t.disp ≠ State.reset.disp := ⟨⟨_, rfl, by decide⟩, ⟨_, rfl, by decide⟩⟩

theorem witness_OnlyCallAndReturnTouchTheStack :
    (∃ t, exec (.callNnn 0x300) State.reset = .next t ∧ t.stack ≠ State.reset.stack) ∧
    ∃ t, exec .ret { State.reset with sp := 1 } = .next t ∧ t.sp ≠ 1 := ⟨⟨_, rfl, by decide⟩, ⟨_, rfl, by decide⟩⟩

theorem witness_WritersOfIndexTimersMemoryAndKeys :
    (∃ t, exec (.ldINnn 0x300) State.reset = .next t ∧ t.I ≠ State.reset.I) ∧
    (∃ t, exec (.ldDtVx 0) (regs [(0, 1)]) = .next t ∧ t.DT ≠ 0) ∧
    (∃ t, exec (.ldStVx 0) (regs [(0, 1)]) = .next t ∧ t.ST ≠ 0) ∧
    ∃ t, exec (.ldMemVx 0) { regs [(0, 1)] with I := 0x200 } = .next t ∧ t.mem ≠ [] :=
  ⟨⟨_, rfl, by decide⟩, ⟨_, rfl, by decide⟩, ⟨_, rfl, by decide⟩, ⟨_, rfl, by decide⟩⟩

theorem witness_WritersOfTheFlagRegister :
    (∃ t, exec (.addVxVy 0 1) (regs [(0, 0xFF), (1, 1)]) = .next t ∧ t.v[15] ≠ 0) ∧
    (∃ t, exec (.ldVxNn 15 7) State.reset = .next t ∧ t.v[15] ≠ 0) ∧
    ∃ t, exec (.ldVxMem 15) { State.reset with I := 0x300, mem := [(0x30F, 9)] } = .next t ∧ t.v[15] ≠ 0 :=
  ⟨⟨_, rfl, by decide⟩, ⟨_, rfl, by decide⟩, ⟨_, rfl, by decide⟩⟩

theorem witness_NoInstructionReadsTheSoundTimer : ∃ t, exec (.ldStVx 0) State.reset = .next t := ⟨_, rfl⟩

theorem witness_CanonicalMemoryIsUnique : Memory.wf [(0x200, 0x60), (0x201, 0x01)] ∧
    ∀ a, a < 0x1000 → Memory.read loaded.mem a = Memory.read [(0x200, 0x60), (0x201, 0x01)] a :=
  ⟨by decide, fun _ _ => rfl⟩

/-- Rows at the last address, and no rows with I past the last address. -/
theorem witness_DrawFlipsTheTargetedPixels : (0 : Reg) ≠ 15 ∧ (14 : Reg) ≠ 15 ∧
    ({ State.reset with I := 0xFFF } : State).I.toNat + (1#4).toNat ≤ 0x1000 ∧
    ((0#4 = 0) ∧ 0x1000 < ({ State.reset with I := 0xFFFF } : State).I.toNat + (0#4).toNat) := by decide

/-- A pixel that collides, and one that does not. -/
theorem witness_DrawFlipsTheTargetedPixels_hits :
    ({ State.reset with I := 0x300, mem := [(0x300, 0x81)] } : State).spriteHits 0 1 1 7 ∧
    Display.pixel (onePixel 7) 7 = true ∧ Display.pixel (onePixel 7) 0 = false :=
  ⟨⟨0, 7, by decide, by decide, by decide, by decide⟩, by decide, by decide⟩

theorem witness_DrawFaults : (14 : Reg) ≠ 15 ∧ (2#4) ≠ 0 ∧
    0x1000 < ({ State.reset with I := 0xFFF } : State).I.toNat + (2#4).toNat := by decide

theorem witness_DrawTwiceRestoresTheDisplay : (0 : Reg) ≠ 15 ∧ (1 : Reg) ≠ 15 ∧
    ({ State.reset with I := 0x300, mem := [(0x300, 0x80)] } : State).I.toNat + (1#4).toNat ≤ 0x1000 ∧
    ({ State.reset with I := 0x300, mem := [(0x300, 0x80)] } : State).spriteHits 0 1 1 0 :=
  ⟨by decide, by decide, by decide, ⟨0, 0, by decide, by decide, by decide, by decide⟩⟩

theorem witness_DroppedPixelsAreReported :
    Event.pixelDropped 17478 ∈ eventsOf (.drwVxVyN 0 1 15)
      { regs [(0, 0xFF), (1, 0xFF)] with I := 0x300, mem := [(0x30E, 0x01)] } := by decide

theorem witness_RetPopsAndResumes : 0 < ({ State.reset with sp := 1 } : State).sp.val ∧ State.reset.sp = 0 ∧
    0 < ({ State.reset with sp := 16 } : State).sp.val := by decide

theorem witness_JumpSetsPc : State.reset.fault = none ∧ (0x1FF#12).toNat < 0x200 ∧ (0xFFF#12).toNat = 0xFFF := by decide

theorem witness_CallPushesAndJumps : ({ State.reset with sp := 15 } : State).sp.val < 16 ∧
    ({ State.reset with sp := 16 } : State).sp = 16 := by decide

theorem witness_OtherSkips : (1#4) ≠ 0 ∧ (15#4) ≠ 0 := by decide

theorem witness_JumpPlusV0 :
    (∃ t, exec (.jpV0Nnn 0x1FF) State.reset = .next t ∧ t.fault = none ∧ t.pc.toNat < 0x200) ∧
    ∃ t, exec (.jpV0Nnn 0xFFE) (regs [(0, 1)]) = .next t ∧ t.fault = none ∧ 0xFFE < t.pc.toNat :=
  ⟨⟨_, rfl, by decide, by decide⟩, ⟨_, rfl, by decide, by decide⟩⟩

/-- Operands other than VF, and VF as an operand, on either side. -/
theorem witness_AddWithCarry : (14 : Reg) ≠ 15 ∧ (0 : Reg) ≠ 15 ∧
    ((15 : Reg) = 15 ∨ (0 : Reg) = 15) ∧ ((0 : Reg) = 15 ∨ (15 : Reg) = 15) := by decide

theorem witness_SubtractStrictFlag : (14 : Reg) ≠ 15 ∧ (0 : Reg) ≠ 15 ∧
    ((15 : Reg) = 15 ∨ (0 : Reg) = 15) ∧ ((0 : Reg) = 15 ∨ (15 : Reg) = 15) := by decide

theorem witness_ReverseSubtractStrictFlag : (14 : Reg) ≠ 15 ∧ (0 : Reg) ≠ 15 ∧
    ((15 : Reg) = 15 ∨ (0 : Reg) = 15) ∧ ((0 : Reg) = 15 ∨ (15 : Reg) = 15) := by decide

theorem witness_ShiftRight : (14 : Reg) ≠ 15 ∧ (15 : Reg) = 15 := by decide

theorem witness_ShiftLeft : (14 : Reg) ≠ 15 ∧ (15 : Reg) = 15 := by decide

theorem witness_StoreDecimalDigits : Memory.wf State.reset.mem ∧
    0x200 ≤ ({ State.reset with I := 0x200 } : State).I.toNat ∧ ({ State.reset with I := 0xFFD } : State).I.toNat + 2 < 0x1000 ∧
    0x200 ≤ ({ State.reset with I := 0xFFD } : State).I.toNat := ⟨Memory.wf_nil, by decide, by decide, by decide⟩

theorem witness_StoreRegisters : Memory.wf State.reset.mem ∧
    0x200 ≤ ({ State.reset with I := 0xFF0 } : State).I.toNat ∧
    ({ State.reset with I := 0xFF0 } : State).I.toNat + (15 : Reg).val < 0x1000 := ⟨Memory.wf_nil, by decide, by decide⟩

theorem witness_StoresFaultBeforeWriting : ({ State.reset with I := 0x1FF } : State).I.toNat < 0x200 ∧
    0x1000 ≤ ({ State.reset with I := 0xFFE } : State).I.toNat + 2 ∧
    0x1000 ≤ ({ State.reset with I := 0xFF1 } : State).I.toNat + (15 : Reg).val := by decide

theorem witness_LoadRegisters : ({ State.reset with I := 0xFFF } : State).I.toNat + (0 : Reg).val < 0x1000 ∧
    0x1000 ≤ ({ State.reset with I := 0xFFF } : State).I.toNat + (1 : Reg).val := by decide

theorem witness_DumpThenLoadRestoresRegisters : Memory.wf loaded.mem ∧
    0x200 ≤ ({ loaded with I := 0x200 } : State).I.toNat ∧ ({ loaded with I := 0x200 } : State).I.toNat + (15 : Reg).val < 0x1000 :=
  ⟨loaded_inv.memory, by decide, by decide⟩

/-- FX55 at 0x200 stores `LD V2, 01` where the next step fetches. -/
theorem witness_StoredBytesAreFetchedNext :
    Memory.wf (regs [(0, 0x62), (1, 0x01)]).mem ∧ (regs [(0, 0x62), (1, 0x01)]).fault = none ∧
    0x200 ≤ ({ regs [(0, 0x62), (1, 0x01)] with I := 0x202 } : State).I.toNat ∧
    ({ regs [(0, 0x62), (1, 0x01)] with I := 0x202 } : State).I.toNat + (1 : Reg).val < 0x1000 ∧ (0 : Reg).val < (1 : Reg).val ∧
    ((regs [(0, 0x62), (1, 0x01)]).pc + 2).toNat = 0x202 + (0 : Reg).val ∧
    decode ((regs [(0, 0x62), (1, 0x01)]).v[0] ++ (regs [(0, 0x62), (1, 0x01)]).v[1]) = .ok (.ldVxNn 2 1) := by decide

theorem witness_KeySkips : ((regs [(0, 15)]).v[0]).toNat < 16 ∧ 16 ≤ ((regs [(0, 16)]).v[0]).toNat := by decide

theorem witness_WaitForKey : (∀ k : Fin 16, State.reset.key[k.val] = false) ∧
    ∃ k : Fin 16, (oneKey 15)[k.val] = true := by decide

theorem witness_TicksDecrementNonzeroTimers : State.reset.fault = none ∧ ({ State.reset with DT := 255 } : State).fault = none := by
  decide

theorem witness_LoadProgramWritesTheImage : State.reset.fault = none ∧ Memory.wf State.reset.mem ∧
    (List.replicate 0xE00 (0x12 : Byte)).length ≤ 0xE00 ∧ 0xE00 < (List.replicate 0xE01 (0x12 : Byte)).length :=
  ⟨rfl, Memory.wf_nil, by rw [List.length_replicate], by rw [List.length_replicate]; decide⟩

theorem witness_SetKeySetsOneFlag : State.reset.fault = none ∧ 15 < 16 ∧ 16 ≤ 16 := by decide

theorem witness_DumpMemoryReadsOrFaults : (0 : Nat) ≤ 4096 ∧ (4096 : Nat) ≤ 4096 ∧ ((-1 : Int) < 0) ∧ ((4096 : Int) < 4097) ∧
    (State.reset.latch .dumpRange none (.bounds 0 4097)).fault ≠ none := by decide

end Sys2Proof.Tests
end

section
/-! # The decoder is the row search of the opcode map (R80)

The mask of a row of R81 keeps the op field alone, the op field with the low nibble, the op field with the low byte, or
the whole word. So a row's match is a condition on exactly the fields the two-level decoder branches on (R75, R76).
From this, a word that a row matches decodes to that row's instruction, and a word that no row matches is rejected. -/

namespace Sys2Proof

/-! ### A row's match as a condition on the fields -/

theorem and_fullMask (w : Word) : w &&& 0xFFFF#16 = w := BitVec.and_allOnes

theorem and_opMask (w : Word) : w &&& 0xF000#16 = opField w ++ 0#12 := by
  refine BitVec.eq_of_getLsbD_eq fun i hi => ?_
  simp only [opField, BitVec.getLsbD_append, BitVec.getLsbD_extractLsb', BitVec.getLsbD_and]
  interval_cases i <;> simp

theorem and_opNMask (w : Word) : w &&& 0xF00F#16 = opField w ++ 0#4 ++ 0#4 ++ nField w := by
  refine BitVec.eq_of_getLsbD_eq fun i hi => ?_
  simp only [opField, nField, BitVec.getLsbD_append, BitVec.getLsbD_extractLsb', BitVec.getLsbD_and]
  interval_cases i <;> simp

theorem and_opNnMask (w : Word) : w &&& 0xF0FF#16 = opField w ++ 0#4 ++ nnField w := by
  refine BitVec.eq_of_getLsbD_eq fun i hi => ?_
  simp only [opField, nnField, BitVec.getLsbD_append, BitVec.getLsbD_extractLsb', BitVec.getLsbD_and]
  interval_cases i <;> simp

/-! In the three lemmas below `p` is a row's pattern and `hp` says that it has no bit outside the mask. The fields of
`p` are written with `extractLsb'`, which `simp` evaluates on a literal. -/

theorem opMask_match_iff {p : Word} (hp : p &&& 0xF000#16 = p) (w : Word) :
    w &&& 0xF000#16 = p ↔ opField w = p.extractLsb' 12 4 := by
  constructor
  · rintro rfl
    rw [and_opMask, bits_op_nnn]
  · intro hop
    rw [← hp, and_opMask, and_opMask, hop, opField]

theorem opNMask_match_iff {p : Word} (hp : p &&& 0xF00F#16 = p) (w : Word) :
    w &&& 0xF00F#16 = p ↔ opField w = p.extractLsb' 12 4 ∧ nField w = p.extractLsb' 0 4 := by
  constructor
  · rintro rfl
    rw [and_opNMask, bits_op_xyn, bits_n_xyn]
    exact ⟨rfl, rfl⟩
  · rintro ⟨hop, hn⟩
    rw [← hp, and_opNMask, and_opNMask, hop, hn, opField, nField]

theorem opNnMask_match_iff {p : Word} (hp : p &&& 0xF0FF#16 = p) (w : Word) :
    w &&& 0xF0FF#16 = p ↔ opField w = p.extractLsb' 12 4 ∧ nnField w = p.extractLsb' 0 8 := by
  constructor
  · rintro rfl
    rw [and_opNnMask, bits_op_xnn, bits_nn_xnn]
    exact ⟨rfl, rfl⟩
  · rintro ⟨hop, hnn⟩
    rw [← hp, and_opNnMask, and_opNnMask, hop, hnn, opField, nnField]

/-! ### The decoder agrees with the rows -/

theorem decode_of_row_match_low (w : Word) :
    ∀ r ∈ opcodeRowsLow, w &&& r.mask = r.pattern → decode w = .ok (r.build w) := by
  simp (disch := decide) only [opcodeRowsLow, List.forall_mem_cons, and_fullMask, opMask_match_iff,
    opNMask_match_iff]
  refine ⟨?cls, ?ret, ?fields⟩
  case cls => rintro rfl; decide
  case ret => rintro rfl; decide
  case fields => simp +contextual [decode, decodeFamily8]

theorem decode_of_row_match_high (w : Word) :
    ∀ r ∈ opcodeRowsHigh, w &&& r.mask = r.pattern → decode w = .ok (r.build w) := by
  simp (disch := decide) only [opcodeRowsHigh, List.forall_mem_cons, opMask_match_iff, opNnMask_match_iff]
  simp +contextual [decode, decodeFamilyE, decodeFamilyF]

theorem decode_of_row_match (w : Word) :
    ∀ r ∈ opcodeRows, w &&& r.mask = r.pattern → decode w = .ok (r.build w) :=
  List.forall_mem_append.2 ⟨decode_of_row_match_low w, decode_of_row_match_high w⟩

/-- R78: a word of no row is illegal. A family whose row keeps the op field alone contradicts that row; the others go
through the selector of their second level. -/
theorem decode_of_no_row_match (w : Word) (hnone : ∀ r ∈ opcodeRows, w &&& r.mask ≠ r.pattern) :
    ∃ e, decode w = .error e := by
  simp (disch := decide) [opcodeRows, opcodeRowsLow, opcodeRowsHigh, and_fullMask, opMask_match_iff,
    opNMask_match_iff, opNnMask_match_iff] at hnone
  fun_cases decode w
  case case1 => -- family 0x0
    simp_all [decodeFamily0]
  case case7 => exact ⟨.family5, rfl⟩
  case case10 => -- family 0x8
    fun_cases decodeFamily8 w <;> simp_all
  case case12 => exact ⟨.family9, rfl⟩
  case case17 => -- family 0xE
    fun_cases decodeFamilyE w <;> simp_all
  case case18 => -- family 0xF, the decoder's default
    have hop : opField w = 0xF#4 := by simp only [imp_false] at *; bv_omega
    fun_cases decodeFamilyF w <;> simp_all
  all_goals simp_all

theorem decode_toOption_eq_decodeByRows (w : Word) : (decode w).toOption = decodeByRows w := by
  unfold decodeByRows
  cases hfind : opcodeRows.find? fun r => (w &&& r.mask) == r.pattern with
  | none =>
    obtain ⟨e, he⟩ := decode_of_no_row_match w (by simpa using hfind)
    rw [he]
    rfl
  | some r =>
    have hmatch : w &&& r.mask = r.pattern := by simpa using List.find?_some hfind
    rw [decode_of_row_match w r (List.mem_of_find?_eq_some hfind) hmatch]
    rfl

/-! ### At most one row matches -/

/-- Any two rows' patterns differ in a bit that both masks keep. -/
theorem opcodeRows_pairwise_disjoint :
    opcodeRows.Pairwise fun r q => r.pattern &&& q.mask ≠ q.pattern &&& r.mask := by
  decide

theorem opcodeRows_pairwise_not_both_match (w : Word) :
    opcodeRows.Pairwise fun r q => w &&& r.mask = r.pattern → w &&& q.mask ≠ q.pattern :=
  opcodeRows_pairwise_disjoint.imp fun {r q} hne hr hq => hne <| by
    rw [← hr, ← hq, BitVec.and_assoc, BitVec.and_assoc, BitVec.and_comm r.mask]

theorem length_le_one_of_pairwise_false {α : Type} :
    ∀ {l : List α}, (l.Pairwise fun _ _ => False) → l.length ≤ 1
  | [], _ => Nat.zero_le 1
  | [_], _ => Nat.le_refl 1
  | _ :: _ :: _, h => (List.rel_of_pairwise_cons h List.mem_cons_self).elim

theorem matching_rows_length_le_one (w : Word) :
    (opcodeRows.filter fun r => (w &&& r.mask) == r.pattern).length ≤ 1 :=
  length_le_one_of_pairwise_false <| List.pairwise_filter.2 <| by
    simpa using opcodeRows_pairwise_not_both_match w

/-- Settles O3: a row that matches gives the decoder's instruction, no row means a rejected word, and the rows exclude
each other. -/
theorem decodeIsTheRowSearch : Obligations.DecodeIsTheRowSearch := fun w =>
  ⟨decode_toOption_eq_decodeByRows w, matching_rows_length_le_one w⟩

end Sys2Proof

end

section
/-! # The display operations (41_display.md) -/

namespace Sys2Proof.Machine

/-- CLS raises no fault, so it always completes with its effect. -/
theorem exec_cls (s : State) : exec .cls s = .next { s with disp := Display.clear, pc := s.pc + 2 } :=
  exec_eq .cls s

/-- Settles O24: the state after CLS shows `Display.clear`, whose pixels are all off, and differs from the state before
in nothing else but pc. -/
theorem clsClearsEveryPixel : Obligations.ClsClearsEveryPixel := by
  refine ⟨?decodes, fun s => ⟨_, exec_cls s, ?off, ?frame⟩⟩
  case decodes => decide
  case off => exact fun p _ => Display.pixel_clear p
  case frame => rfl

end Sys2Proof.Machine

end

section
/-! # Skips on an immediate (42_control_transfer.md) -/

namespace Sys2Proof.Machine

/-- Every word of family 3 is an SE: neither of its fields is restricted (R81). -/
theorem decode_seVxNn (x : Reg) (nn : Byte) : decode (0x3#4 ++ x.bits ++ nn) = .ok (.seVxNn x nn) := by
  simp [decode]

/-- SE raises no fault, so it always completes with its effect. -/
theorem exec_seVxNn (x : Reg) (nn : Byte) (s : State) :
    exec (.seVxNn x nn) s = .next (s.skipped (s.getV x == nn)) :=
  exec_eq (.seVxNn x nn) s

/-- A skip on a decided equality, with the equality itself as the condition. -/
theorem State.skipped_beq (s : State) (a b : Byte) :
    s.skipped (a == b) = { s with pc := if a = b then s.pc + 4 else s.pc + 2 } := by
  simp [State.skipped]

/-- Settles O32: SE completes for every register, VF included, and its effect is the skip on `Vx = nn`. -/
theorem skipIfEqualImmediate : Obligations.SkipIfEqualImmediate := by
  refine fun x nn s => ⟨decode_seVxNn x nn, ?effect⟩
  case effect => rw [exec_seVxNn, State.skipped_beq, State.getV]

end Sys2Proof.Machine

end

section
/-! # Loads, copies and logic on registers (43_alu.md)

The instructions of R160 to R165 raise no fault and their only effect is a write to Vx, with no flag. So what each of
them does follows from one rule, and only the decoding and the value written differ. -/

namespace Sys2Proof.Machine

/-! ### Decoding -/

/-- Every word of family 6 is an LD Vx, nn: neither of its fields is restricted (R81). -/
theorem decode_ldVxNn (x : Reg) (nn : Byte) : decode (0x6#4 ++ x.bits ++ nn) = .ok (.ldVxNn x nn) := by
  simp [decode]

/-- Every word of family 7 is an ADD Vx, nn: neither of its fields is restricted (R81). -/
theorem decode_addVxNn (x : Reg) (nn : Byte) : decode (0x7#4 ++ x.bits ++ nn) = .ok (.addVxNn x nn) := by
  simp [decode]

/-- A word of family 8 goes to the second level, which selects on its low nibble (R76). -/
theorem decode_family8 (x y : Reg) (n : BitVec 4) :
    decode (0x8#4 ++ x.bits ++ y.bits ++ n) = decodeFamily8 (0x8#4 ++ x.bits ++ y.bits ++ n) := by
  simp [decode]

theorem decode_ldVxVy (x y : Reg) : decode (0x8#4 ++ x.bits ++ y.bits ++ 0x0#4) = .ok (.ldVxVy x y) := by
  rw [decode_family8]; simp [decodeFamily8]

theorem decode_orVxVy (x y : Reg) : decode (0x8#4 ++ x.bits ++ y.bits ++ 0x1#4) = .ok (.orVxVy x y) := by
  rw [decode_family8]; simp [decodeFamily8]

theorem decode_andVxVy (x y : Reg) : decode (0x8#4 ++ x.bits ++ y.bits ++ 0x2#4) = .ok (.andVxVy x y) := by
  rw [decode_family8]; simp [decodeFamily8]

theorem decode_xorVxVy (x y : Reg) : decode (0x8#4 ++ x.bits ++ y.bits ++ 0x3#4) = .ok (.xorVxVy x y) := by
  rw [decode_family8]; simp [decodeFamily8]

/-! ### Effect -/

/-- An instruction that raises nothing completes with its effect. -/
theorem exec_of_no_failure {i : Instr} {s : State} (h : failureOf i s = none) : exec i s = .next (effectOf i s) := by
  rw [exec_eq, h]

/-- An instruction that raises nothing and whose effect is the write of `b` to Vx changes Vx and pc and nothing else,
for every register, VF included. -/
theorem exec_of_effect_setV {i : Instr} {s : State} {x : Reg} {b : Byte} (hf : failureOf i s = none)
    (he : effectOf i s = (s.setV x b).advanced) :
    exec i s = .next { s with v := s.v.set x.val b, pc := s.pc + 2 } := by
  rw [exec_of_no_failure hf, he, State.advanced, State.setV]

/-- Settles O35: LD Vx, nn writes its immediate. -/
theorem loadImmediate : Obligations.LoadImmediate := fun x nn _ =>
  ⟨decode_ldVxNn x nn, exec_of_effect_setV rfl rfl⟩

/-- Settles O36: ADD Vx, nn writes the sum of two bytes, which as a byte is the sum of their values modulo 256. -/
theorem addImmediate : Obligations.AddImmediate := by
  refine fun x nn s => ⟨decode_addVxNn x nn, ?effect⟩
  case effect =>
    rw [← BitVec.add_def]
    exact exec_of_effect_setV rfl rfl

/-- Settles O37: each of the four writes to Vx what its operation makes of the operands as they were before. -/
theorem copyAndLogic : Obligations.CopyAndLogic := fun x y _ =>
  ⟨decode_ldVxVy x y, exec_of_effect_setV rfl rfl,
   decode_orVxVy x y, exec_of_effect_setV rfl rfl,
   decode_andVxVy x y, exec_of_effect_setV rfl rfl,
   decode_xorVxVy x y, exec_of_effect_setV rfl rfl⟩

end Sys2Proof.Machine

end

section
/-! # Loads of the index register (44_index_memory.md)

LD I, nnn and LD F, Vx raise no fault and their only effect is a write to I, so what both do follows from one rule. -/

namespace Sys2Proof.Machine

/-! ### Decoding -/

/-- Every word of family A is an LD I, nnn: its address field is not restricted (R81). -/
theorem decode_ldINnn (nnn : BitVec 12) : decode (0xA#4 ++ nnn) = .ok (.ldINnn nnn) := by
  simp [decode]

/-- A word of family F goes to the second level, which selects on its low byte (R76). -/
theorem decode_familyF (x : Reg) (nn : Byte) :
    decode (0xF#4 ++ x.bits ++ nn) = decodeFamilyF (0xF#4 ++ x.bits ++ nn) := by
  simp [decode]

theorem decode_ldFVx (x : Reg) : decode (0xF#4 ++ x.bits ++ 0x29#8) = .ok (.ldFVx x) := by
  rw [decode_familyF]; simp [decodeFamilyF]

/-! ### Effect -/

/-- An instruction that raises nothing and whose effect is the write of `w` to I changes I and pc and nothing else. -/
theorem exec_of_effect_setI {i : Instr} {s : State} {w : Word} (hf : failureOf i s = none)
    (he : effectOf i s = (s.setI w).advanced) :
    exec i s = .next { s with I := w, pc := s.pc + 2 } := by
  rw [exec_of_no_failure hf, he, State.advanced, State.setI]

theorem exec_ldINnn (nnn : BitVec 12) (s : State) :
    exec (.ldINnn nnn) s = .next { s with I := addressImmediate nnn, pc := s.pc + 2 } :=
  exec_of_effect_setI rfl rfl

theorem exec_ldFVx (x : Reg) (s : State) :
    exec (.ldFVx x) s = .next { s with I := glyphAddress (s.getV x), pc := s.pc + 2 } :=
  exec_of_effect_setI rfl rfl

/-- Settles O44: the address written by LD I is the zero-extended immediate, and five times a byte is below 2^16, so
the glyph address of LD F is the exact product for every value of Vx. -/
theorem loadIndexAndGlyphAddress : Obligations.LoadIndexAndGlyphAddress := by
  refine fun nnn x s => ⟨decode_ldINnn nnn, ?loadIndex, decode_ldFVx x, _, exec_ldFVx x s, ?product, ?frame⟩
  case loadIndex => rw [exec_ldINnn, addressImmediate_eq]
  case product => exact glyphAddress_toNat (s.getV x)
  case frame => rfl

end Sys2Proof.Machine

end

section
/-! # Reads and writes of the timers (45_keys_timers.md, R212, R214, R215)

The three raise no fault, so each completes with its effect, and the sound level follows from the ST written. -/

namespace Sys2Proof.Machine

/-! ### Decoding -/

theorem decode_ldVxDt (x : Reg) : decode (0xF#4 ++ x.bits ++ 0x07#8) = .ok (.ldVxDt x) := by
  rw [decode_familyF]; simp [decodeFamilyF]

theorem decode_ldDtVx (x : Reg) : decode (0xF#4 ++ x.bits ++ 0x15#8) = .ok (.ldDtVx x) := by
  rw [decode_familyF]; simp [decodeFamilyF]

theorem decode_ldStVx (x : Reg) : decode (0xF#4 ++ x.bits ++ 0x18#8) = .ok (.ldStVx x) := by
  rw [decode_familyF]; simp [decodeFamilyF]

/-! ### Effect -/

theorem exec_ldVxDt (x : Reg) (s : State) :
    exec (.ldVxDt x) s = .next { s with v := s.v.set x.val s.DT, pc := s.pc + 2 } :=
  exec_of_effect_setV rfl rfl

theorem exec_ldDtVx (x : Reg) (s : State) :
    exec (.ldDtVx x) s = .next { s with DT := s.getV x, pc := s.pc + 2 } :=
  exec_of_no_failure rfl

theorem exec_ldStVx (x : Reg) (s : State) :
    exec (.ldStVx x) s = .next { s with ST := s.getV x, pc := s.pc + 2 } :=
  exec_of_no_failure rfl

/-- The sound output is on exactly while ST is not 0 (R255). -/
theorem State.soundActive_iff (s : State) : s.soundActive = true ↔ s.ST ≠ 0 := by
  rw [State.soundActive, bne_iff_ne]

/-- Settles O54: each of the three completes with its one write, for every register, and the sound level after
LD ST is that of the Vx just written to ST. -/
theorem timerReadAndWrites : Obligations.TimerReadAndWrites := fun x s =>
  ⟨decode_ldVxDt x, exec_ldVxDt x s,
   decode_ldDtVx x, exec_ldDtVx x s,
   decode_ldStVx x, _, exec_ldStVx x s, rfl, State.soundActive_iff _⟩

end Sys2Proof.Machine

end

section
/-! # Decode and encode are inverse (30_encoding.md R72 to R81) -/

namespace Sys2Proof

/-! ### Decoding an encoded word

The word of an instruction has its family in the op field, so `decode` goes to that family; where the family has a
second level, the selector field holds the instruction's own selector. -/

theorem decode_encode (i : Instr) : decode (encode i) = .ok i := by
  cases i with
  | cls | ret => decide
  | jpNnn _ | callNnn _ | ldINnn _ | jpV0Nnn _ => simp [encode, decode]
  | seVxNn _ _ | sneVxNn _ _ | ldVxNn _ _ | addVxNn _ _ | rndVxNn _ _ => simp [encode, decode]
  | seVxVy _ _ | sneVxVy _ _ | drwVxVyN _ _ _ => simp [encode, decode]
  | ldVxVy _ _ | orVxVy _ _ | andVxVy _ _ | xorVxVy _ _ | addVxVy _ _ | subVxVy _ _ | shrVx _ _ | subnVxVy _ _
  | shlVx _ _ => simp [encode, decode, decodeFamily8]
  | skpVx _ | sknpVx _ => simp [encode, decode, decodeFamilyE]
  | ldVxDt _ | ldVxK _ | ldDtVx _ | ldStVx _ | addIVx _ | ldFVx _ | ldBVx _ | ldMemVx _ | ldVxMem _ =>
    simp [encode, decode, decodeFamilyF]

/-- Settles O1: by cases on the instruction, its word goes to its own family and selector. -/
theorem decodeInvertsEncode : Obligations.DecodeInvertsEncode := decode_encode

/-! ### A word is assembled from its fields -/

theorem append_nnnField {w : Word} {op : BitVec 4} (hop : opField w = op) : op ++ nnnField w = w := by
  subst hop
  refine BitVec.eq_of_getLsbD_eq fun i hi => ?_
  simp only [opField, nnnField, BitVec.getLsbD_append, BitVec.getLsbD_extractLsb']
  interval_cases i <;> simp

theorem append_nnField {w : Word} {op : BitVec 4} {nn : Byte} (hop : opField w = op) (hnn : nnField w = nn) :
    op ++ (xField w).bits ++ nn = w := by
  subst hop hnn
  refine BitVec.eq_of_getLsbD_eq fun i hi => ?_
  simp only [opField, xField, nnField, Reg.bits, BitVec.ofFin_toFin, BitVec.getLsbD_append, BitVec.getLsbD_extractLsb']
  interval_cases i <;> simp

theorem append_nField {w : Word} {op n : BitVec 4} (hop : opField w = op) (hn : nField w = n) :
    op ++ (xField w).bits ++ (yField w).bits ++ n = w := by
  subst hop hn
  refine BitVec.eq_of_getLsbD_eq fun i hi => ?_
  simp only [opField, xField, yField, nField, Reg.bits, BitVec.ofFin_toFin, BitVec.getLsbD_append,
    BitVec.getLsbD_extractLsb']
  interval_cases i <;> simp

/-! ### Encoding a decoded word

A row that matches fixes the op field, and the selector field where it has one; its instruction keeps every other
field, so the encoder puts the same word together again. -/

theorem encode_build_low (w : Word) :
    ∀ r ∈ opcodeRowsLow, w &&& r.mask = r.pattern → encode (r.build w) = w := by
  simp (disch := decide) only [opcodeRowsLow, List.forall_mem_cons, and_fullMask, opMask_match_iff,
    opNMask_match_iff]
  simp +contextual [encode, append_nnnField, append_nnField, append_nField]

theorem encode_build_high (w : Word) :
    ∀ r ∈ opcodeRowsHigh, w &&& r.mask = r.pattern → encode (r.build w) = w := by
  simp (disch := decide) only [opcodeRowsHigh, List.forall_mem_cons, opMask_match_iff, opNnMask_match_iff]
  simp +contextual [encode, append_nnnField, append_nnField, append_nField]

theorem encode_build (w : Word) : ∀ r ∈ opcodeRows, w &&& r.mask = r.pattern → encode (r.build w) = w :=
  List.forall_mem_append.2 ⟨encode_build_low w, encode_build_high w⟩

/-- A word that decodes has a row of the opcode map that matches it (R80). -/
theorem exists_row_of_decode {w : Word} {i : Instr} (h : decode w = .ok i) :
    ∃ r ∈ opcodeRows, w &&& r.mask = r.pattern ∧ i = r.build w := by
  by_contra hnone
  have hno : ∀ r ∈ opcodeRows, w &&& r.mask ≠ r.pattern := fun r hr hmatch =>
    hnone ⟨r, hr, hmatch, Except.ok.inj (h.symm.trans (decode_of_row_match w r hr hmatch))⟩
  obtain ⟨e, he⟩ := decode_of_no_row_match w hno
  cases h.symm.trans he

theorem encode_of_decode {w : Word} {i : Instr} (h : decode w = .ok i) : encode i = w := by
  obtain ⟨r, hr, hmatch, rfl⟩ := exists_row_of_decode h
  exact encode_build w r hr hmatch

/-- Settles O2: the row that a decoded word matches gives back the bits its instruction does not keep. -/
theorem encodeInvertsDecode : Obligations.EncodeInvertsDecode := fun _ _ => encode_of_decode

/-! ### The legal words are the words that decode (R78) -/

theorem bits_eq_opField (w : Word) : w.extractLsb' 12 4 = opField w := rfl

theorem bits_eq_nField (w : Word) : w.extractLsb' 0 4 = nField w := rfl

theorem bits_eq_nnField (w : Word) : w.extractLsb' 0 8 = nnField w := rfl

/-! The second levels reject exactly the selectors that R78 lists. -/

theorem word_of_decodeFamily0_error {w : Word} {e : DecodeReject} (h : decodeFamily0 w = .error e) :
    w ≠ 0x00E0#16 ∧ w ≠ 0x00EE#16 := by
  constructor <;> rintro rfl <;> cases h

theorem nField_of_decodeFamily8_error {w : Word} {e : DecodeReject} (h : decodeFamily8 w = .error e) :
    nField w ∈ [0x8#4, 0x9#4, 0xA#4, 0xB#4, 0xC#4, 0xD#4, 0xF#4] := by
  fun_cases decodeFamily8 w
  case case10 => -- no selector matched
    simp only [imp_false, List.mem_cons, List.not_mem_nil] at *
    bv_omega
  all_goals simp_all [decodeFamily8]

theorem nnField_of_decodeFamilyE_error {w : Word} {e : DecodeReject} (h : decodeFamilyE w = .error e) :
    nnField w ∉ [0x9E#8, 0xA1#8] := by
  intro hmem
  simp only [List.mem_cons, List.not_mem_nil, or_false] at hmem
  rcases hmem with hnn | hnn <;> simp [decodeFamilyE, hnn] at h

theorem nnField_of_decodeFamilyF_error {w : Word} {e : DecodeReject} (h : decodeFamilyF w = .error e) :
    nnField w ∉ [0x07#8, 0x0A#8, 0x15#8, 0x18#8, 0x1E#8, 0x29#8, 0x33#8, 0x55#8, 0x65#8] := by
  intro hmem
  simp only [List.mem_cons, List.not_mem_nil, or_false] at hmem
  rcases hmem with hnn | hnn | hnn | hnn | hnn | hnn | hnn | hnn | hnn <;> simp [decodeFamilyF, hnn] at h

/-- A word is in none of R78's sets: what its family asks of its selector, or of the whole word in family 0x0. -/
theorem legal_iff {w : Word} : w.legal = true ↔
    (opField w = 0x0#4 → w = 0x00E0#16 ∨ w = 0x00EE#16) ∧
    (opField w = 0x5#4 ∨ opField w = 0x9#4 → nField w = 0x0#4) ∧
    (opField w = 0x8#4 → nField w ∉ [0x8#4, 0x9#4, 0xA#4, 0xB#4, 0xC#4, 0xD#4, 0xF#4]) ∧
    (opField w = 0xE#4 → nnField w ∈ [0x9E#8, 0xA1#8]) ∧
    (opField w = 0xF#4 → nnField w ∈ [0x07#8, 0x0A#8, 0x15#8, 0x18#8, 0x1E#8, 0x29#8, 0x33#8, 0x55#8, 0x65#8]) := by
  simp only [Word.legal, Word.legalFamily0, Word.legalRegisterSkip, Word.legalArithmetic, Word.legalKeySkip,
    Word.legalMulti, bits_eq_opField, bits_eq_nField, bits_eq_nnField]
  simp [imp_iff_not_or, and_assoc, or_assoc]

theorem legal_encode (i : Instr) : (encode i).legal = true := by
  cases i with
  | cls | ret => decide
  | _ => simp [legal_iff, encode]

theorem not_legal_of_decode_error {w : Word} {e : DecodeReject} (h : decode w = .error e) : ¬ w.legal = true := by
  intro hlegal
  obtain ⟨h0, hskip, h8, hE, hF⟩ := legal_iff.1 hlegal
  revert h
  fun_cases decode w <;> intro h
  case case1 hop => -- family 0x0
    obtain ⟨hcls, hret⟩ := word_of_decodeFamily0_error h
    exact (h0 hop).elim hcls hret
  case case7 hop hn => exact hn (hskip (.inl hop))
  case case10 hop => exact h8 hop (nField_of_decodeFamily8_error h)
  case case12 hop hn => exact hn (hskip (.inr hop))
  case case17 hop => exact nnField_of_decodeFamilyE_error h (hE hop)
  case case18 => -- family 0xF, the decoder's default
    have hop : opField w = 0xF#4 := by
      clear h0 hskip h8 hE hF
      simp only [imp_false] at *
      bv_omega
    exact nnField_of_decodeFamilyF_error h (hF hop)
  all_goals cases h

/-- Settles O4: the encoder makes legal words only, and a word that the decoder rejects is in one of R78's sets. -/
theorem decoderAcceptsExactlyLegalWords : Obligations.DecoderAcceptsExactlyLegalWords := by
  intro w
  constructor
  · rintro ⟨i, hi⟩
    rw [← encode_of_decode hi]
    exact legal_encode i
  · intro hlegal
    cases hw : decode w with
    | ok i => exact ⟨i, rfl⟩
    | error e => exact absurd hlegal (not_legal_of_decode_error hw)

/-- Settles O5: each word is a literal. -/
theorem sampleWordsDecode : Obligations.SampleWordsDecode := by
  unfold Obligations.SampleWordsDecode
  decide

end Sys2Proof
end

section
/-! # Which instruction raises which fault (60_exceptions.md R231)

`failureOf` says what an instruction raises. Read from the cause back to the instruction it gives the table of R231;
which fields a faulting step writes, and that the latch it leaves is coherent, follow from that table. -/

namespace Sys2Proof.Machine

/-! ### The table of causes -/

theorem firstFailure_read_eq_some {index : Word} {n : Nat} {r : Raise} (h : firstFailure readCheck index n = some r) :
    ∃ a, 0x1000 ≤ a ∧ r = ⟨.memOutOfRange, .address a⟩ := by
  obtain ⟨k, -, hk⟩ := firstFailure_eq_some h
  exact ⟨_, readCheck_eq_some hk⟩

theorem firstFailure_write_eq_some {index : Word} {n : Nat} {r : Raise}
    (h : firstFailure writeCheck index n = some r) :
    (∃ a, 0x1000 ≤ a ∧ r = ⟨.memOutOfRange, .address a⟩) ∨ ∃ a, a < 0x200 ∧ r = ⟨.lowMemoryWrite, .address a⟩ := by
  obtain ⟨k, -, hk⟩ := firstFailure_eq_some h
  exact (writeCheck_eq_some hk).imp (fun h => ⟨_, h⟩) (fun h => ⟨_, h⟩)

/-- The rows of R231's table that an instruction can raise: the cause and its info, with the instructions and the
condition they stand for. -/
inductive Raises (s : State) : Instr → Raise → Prop where
  | stackOverflow (nnn : BitVec 12) : s.sp = 16 → Raises s (.callNnn nnn) ⟨.stackOverflow, .none⟩
  | stackUnderflow : s.sp = 0 → Raises s .ret ⟨.stackUnderflow, .none⟩
  | memOutOfRange {i : Instr} {x : Reg} {a : Nat} :
      (∃ y n, i = .drwVxVyN x y n) ∨ i = .ldBVx x ∨ i = .ldMemVx x ∨ i = .ldVxMem x → 0x1000 ≤ a →
      Raises s i ⟨.memOutOfRange, .address a⟩
  | lowMemoryWrite {i : Instr} {x : Reg} {a : Nat} :
      i = .ldBVx x ∨ i = .ldMemVx x → a < 0x200 → Raises s i ⟨.lowMemoryWrite, .address a⟩
  | flagOperand {i : Instr} : flagOperandConflict i = true → Raises s i ⟨.flagOperand, .none⟩
  | keyIndexRange {i : Instr} {x : Reg} :
      i = .skpVx x ∨ i = .sknpVx x → 16 ≤ (s.getV x).toNat → Raises s i ⟨.keyIndexRange, .none⟩

/-- A failed operand check raises FLAG_OPERAND. -/
theorem Raises.of_flagOperandFailure {i : Instr} {s : State} {r : Raise} (h : flagOperandFailure i = some r) :
    Raises s i r := by
  obtain ⟨hconflict, rfl⟩ := flagOperandFailure_eq_some h
  exact .flagOperand hconflict

/-- A failed access of a store raises one of its two memory faults. -/
theorem Raises.of_store_failure {i : Instr} {x : Reg} {s : State} {n : Nat} {r : Raise}
    (hi : i = .ldBVx x ∨ i = .ldMemVx x) (h : firstFailure writeCheck s.I n = some r) : Raises s i r := by
  rcases firstFailure_write_eq_some h with ⟨a, ha, rfl⟩ | ⟨a, ha, rfl⟩
  · exact .memOutOfRange (x := x) (by tauto) ha
  · exact .lowMemoryWrite hi ha

/-- What an instruction raises is a row of the table. -/
theorem Raises.of_failureOf {i : Instr} {s : State} {r : Raise} (h : failureOf i s = some r) : Raises s i r := by
  cases i with
  | ret =>
    obtain ⟨hsp, rfl⟩ : s.sp = 0 ∧ ⟨.stackUnderflow, .none⟩ = r := by simpa [failureOf] using h
    exact .stackUnderflow hsp
  | callNnn nnn =>
    obtain ⟨hsp, rfl⟩ : s.sp = 16 ∧ ⟨.stackOverflow, .none⟩ = r := by simpa [failureOf] using h
    exact .stackOverflow nnn hsp
  | skpVx x | sknpVx x =>
    obtain ⟨hkey, rfl⟩ : 16 ≤ (s.getV x).toNat ∧ ⟨.keyIndexRange, .none⟩ = r := by simpa [failureOf] using h
    exact .keyIndexRange (x := x) (by tauto) hkey
  | addVxVy x y | subVxVy x y | subnVxVy x y | shrVx x y | shlVx x y => exact .of_flagOperandFailure h
  | drwVxVyN x y n =>
    rcases Option.or_eq_some_iff.1 h with hflag | ⟨-, hread⟩
    · exact .of_flagOperandFailure hflag
    · obtain ⟨a, ha, rfl⟩ := firstFailure_read_eq_some hread
      exact .memOutOfRange (x := x) (.inl ⟨y, n, rfl⟩) ha
  | ldBVx x => exact .of_store_failure (x := x) (.inl rfl) h
  | ldMemVx x => exact .of_store_failure (x := x) (.inr rfl) h
  | ldVxMem x =>
    obtain ⟨a, ha, rfl⟩ := firstFailure_read_eq_some h
    exact .memOutOfRange (x := x) (.inr (.inr (.inr rfl))) ha
  | _ => cases h

/-- The six instructions that may not name VF, with the operands that may not be it (R106). -/
theorem flagOperandConflict_iff {i : Instr} : flagOperandConflict i = true ↔
    (∃ x y n, (i = .addVxVy x y ∨ i = .subVxVy x y ∨ i = .subnVxVy x y ∨ i = .drwVxVyN x y n) ∧ (x = 15 ∨ y = 15)) ∨
      ∃ y, i = .shrVx 15 y ∨ i = .shlVx 15 y := by
  cases i <;> simp [flagOperandConflict]

/-- An instruction run with no latch set that ends with one set raised it: the latch alone changes, and it records the
pc and the instruction's word. -/
theorem exec_raised {i : Instr} {s t : State} {f : FaultRecord} (hs : s.fault = none) (h : exec i s = .next t)
    (hf : t.fault = some f) :
    ∃ r, Raises s i r ∧ t = { s with fault := some f } ∧ f = ⟨r.cause, s.pc, some (encode i), r.info⟩ := by
  rcases exec_cases h with ⟨r, hr, rfl⟩ | ⟨hnone, rfl⟩
  · obtain rfl := Option.some.inj hf
    exact ⟨r, .of_failureOf hr, rfl, rfl⟩
  · rw [effectOf_fault hnone, hs] at hf
    cases hf

/-- Settles O11: the table of causes, row by row. -/
theorem eachCauseComesFromItsInstructions : Obligations.EachCauseComesFromItsInstructions := by
  intro i s t f hs h hf
  obtain ⟨r, hr, -, rfl⟩ := exec_raised hs h hf
  cases hr with
  | stackOverflow nnn hsp => exact .inl ⟨rfl, hsp, nnn, rfl⟩
  | stackUnderflow hsp => exact .inr (.inl ⟨rfl, hsp, rfl⟩)
  | memOutOfRange hi ha => exact .inr (.inr (.inl ⟨rfl, ⟨_, rfl, ha⟩, _, hi⟩))
  | lowMemoryWrite hi ha => exact .inr (.inr (.inr (.inl ⟨rfl, ⟨_, rfl, ha⟩, _, hi⟩)))
  | flagOperand hconflict => exact .inr (.inr (.inr (.inr (.inl ⟨rfl, flagOperandConflict_iff.1 hconflict⟩))))
  | keyIndexRange hi hkey => exact .inr (.inr (.inr (.inr (.inr ⟨rfl, _, hkey, hi⟩))))

/-! ### A step that faults -/

/-- Pc is checked before the fetch, so no instruction raises PC_OUT_OF_RANGE (R101). -/
theorem Raises.cause_ne_pcOutOfRange {i : Instr} {s : State} {r : Raise} (h : Raises s i r) :
    r.cause ≠ .pcOutOfRange := by
  cases h <;> simp

/-- Settles O10: the step found pc out of range, found an illegal word, or ran an instruction that raised. The word an
instruction records is its encoding, which is the word fetched. -/
theorem faultingStepWritesOnlyTheLatch : Obligations.FaultingStepWritesOnlyTheLatch := by
  intro s t f hs h hf
  rcases step_cases h with ⟨hlatched, -⟩ | ⟨-, -, rfl⟩ | ⟨-, -, -, rfl⟩ | ⟨-, -, i, hi, hexec⟩
  · simp [hs] at hlatched
  · obtain rfl := Option.some.inj hf
    exact ⟨rfl, rfl, rfl⟩
  · obtain rfl := Option.some.inj hf
    exact ⟨rfl, rfl, rfl⟩
  · obtain ⟨r, hr, ht, rfl⟩ := exec_raised hs hexec hf
    refine ⟨ht, rfl, ?_⟩
    rw [encode_of_decode hi, if_neg hr.cause_ne_pcOutOfRange]
    rfl

/-- An instruction that raises changes the latch alone, and the word it records is its encoding. -/
theorem exec_of_failure {i : Instr} {s : State} {r : Raise} (h : failureOf i s = some r) :
    exec i s = .next { s with fault := some ⟨r.cause, s.pc, some (encode i), r.info⟩ } := by
  rw [exec_eq, h]
  rfl

/-- Settles O9: an instruction raises its failure or has its effect, and either is a next state. -/
theorem everyInstructionAnswersNext : Obligations.EveryInstructionAnswersNext := by
  intro i s
  cases hfail : failureOf i s with
  | none => exact ⟨_, exec_of_no_failure hfail⟩
  | some r => exact ⟨_, exec_of_failure hfail⟩

/-! ### What a step does, by what it fetches (40_engine_step.md R100 to R103) -/

theorem step_of_decode {s : State} {i : Instr} (hs : s.fault = none) (hpc : s.fetchable = true)
    (hi : decode s.fetchWord = .ok i) : step s = exec i s := by
  simp [step, engineStep, hs, hpc, hi]

theorem step_of_illegal {s : State} {e : DecodeReject} (hs : s.fault = none) (hpc : s.fetchable = true)
    (he : decode s.fetchWord = .error e) : step s = .next (s.latchIllegal s.fetchWord) := by
  simp [step, engineStep, hs, hpc, he]

theorem step_of_not_fetchable {s : State} (hs : s.fault = none) (hpc : s.fetchable = false) :
    step s = .next s.latchPcOutOfRange := by
  simp [step, engineStep, hs, hpc]

theorem fetchable_eq_false_iff {s : State} : s.fetchable = false ↔ s.pc.toNat < 0x200 ∨ 0xFFE < s.pc.toNat := by
  rw [← Bool.not_eq_true, fetchable_iff]
  omega

/-- Settles O6: the word of the two bytes at pc is the word fetched. -/
theorem stepRunsTheDecodedInstruction : Obligations.StepRunsTheDecodedInstruction := fun _ _ hs hlo hhi hi =>
  step_of_decode hs (fetchable_iff.2 ⟨hlo, hhi⟩) hi

/-- Settles O7: such a pc is not fetchable. -/
theorem stepOutsideFetchRangeFaults : Obligations.StepOutsideFetchRangeFaults := fun _ hs hpc =>
  step_of_not_fetchable hs (fetchable_eq_false_iff.2 hpc)

/-- Settles O8: a word of R78's list does not decode. -/
theorem illegalWordFaults : Obligations.IllegalWordFaults := by
  intro s w hs hlo hhi hw hillegal
  subst hw
  cases hdec : decode s.fetchWord with
  | ok i => exact absurd ((decoderAcceptsExactlyLegalWords _).1 ⟨i, hdec⟩) (Bool.eq_false_iff.1 hillegal)
  | error e => exact step_of_illegal hs (fetchable_iff.2 ⟨hlo, hhi⟩) hdec

end Sys2Proof.Machine

end

section
/-! # Keys and the step's record (45_keys_timers.md, 40_engine_step.md R108) -/

namespace Sys2Proof.Machine

/-! ### Key skips -/

theorem exec_skpVx_of_lt {x : Reg} {s : State} (h : (s.getV x).toNat < 16) :
    exec (.skpVx x) s = .next (s.skipped s.key[(s.getV x).toNat]) := by
  rw [exec_of_no_failure (by simp [failureOf, h])]
  simp [effectOf, keyIndex, h]

theorem exec_sknpVx_of_lt {x : Reg} {s : State} (h : (s.getV x).toNat < 16) :
    exec (.sknpVx x) s = .next (s.skipped (!s.key[(s.getV x).toNat])) := by
  rw [exec_of_no_failure (by simp [failureOf, h])]
  simp [effectOf, keyIndex, h]

/-- A skip on a negated condition, with its two pc values exchanged. -/
theorem State.skipped_not (s : State) (c : Bool) :
    s.skipped (!c) = { s with pc := if c = true then s.pc + 2 else s.pc + 4 } := by
  cases c <;> rfl

/-- Settles O52: Vx below 16 names a key and the skip is on it; otherwise the instruction raises. -/
theorem keySkips : Obligations.KeySkips := by
  refine fun x s => ⟨decode_encode (.skpVx x), decode_encode (.sknpVx x), fun h => ⟨exec_skpVx_of_lt h, ?sknp⟩,
    fun h => ⟨?skpFaults, ?sknpFaults⟩⟩
  case sknp =>
    rw [exec_sknpVx_of_lt h, State.skipped_not]
    rfl
  case skpFaults => exact exec_of_failure (i := .skpVx x) (if_pos h)
  case sknpFaults => exact exec_of_failure (i := .sknpVx x) (if_pos h)

/-! ### Waiting for a key -/

theorem downKeys_eq_nil_iff {key : Vector Bool 16} : downKeys key = [] ↔ ∀ k : Fin 16, key[k.val] = false := by
  simp [List.eq_nil_iff_forall_not_mem, mem_downKeys]

/-- FX0A with no key down polls: it changes nothing at all, not even pc (R213). -/
theorem exec_ldVxK_of_no_key {x : Reg} {s : State} (h : ∀ k : Fin 16, s.key[k.val] = false) :
    exec (.ldVxK x) s = .next s := by
  rw [exec_of_no_failure rfl]
  simp [effectOf, downKeys_eq_nil_iff.2 h]

/-- FX0A with a key down writes the number of one that is down, whatever the free choice (R213). -/
theorem exec_ldVxK_of_key {x : Reg} {s : State} (h : ∃ k : Fin 16, s.key[k.val] = true) :
    ∃ k : Fin 16, s.key[k.val] = true ∧ exec (.ldVxK x) s =
      .next { s with v := s.v.set x.val (BitVec.ofNat 8 k.val), pc := s.pc + 2, draws := s.draws + 1 } := by
  cases hdown : downKeys s.key with
  | nil => simp [downKeys_eq_nil_iff.1 hdown] at h
  | cons k ks =>
    refine ⟨chosenKey s.draws k ks, mem_downKeys.1 (hdown ▸ chosenKey_mem s.draws k ks), ?_⟩
    rw [exec_of_no_failure rfl]
    simp only [effectOf, hdown]
    rfl

/-- Settles O53: by whether a key is down. -/
theorem waitForKey : Obligations.WaitForKey := fun x _ =>
  ⟨decode_encode (.ldVxK x), exec_ldVxK_of_no_key, exec_ldVxK_of_key⟩

/-! ### The record of a step -/

theorem waitsForKey_iff {i : Instr} {s : State} :
    waitsForKey i s = true ↔ (∃ x, i = .ldVxK x) ∧ ∀ k : Fin 16, s.key[k.val] = false := by
  cases i <;> simp [waitsForKey, downKeys_eq_nil_iff]

theorem eventsOf_eq_nil {i : Instr} {s : State} (h : ∀ x y n, i ≠ .drwVxVyN x y n) : eventsOf i s = [] := by
  cases i with
  | drwVxVyN x y n => exact absurd rfl (h x y n)
  | _ => rfl

theorem stepRecord_halted {s : State} {f : FaultRecord} (hs : s.fault = some f) :
    stepRecord s = some (.halted f) := by
  simp [stepRecord, hs]

theorem stepRecord_of_not_fetchable {s : State} (hs : s.fault = none) (hpc : s.fetchable = false) :
    stepRecord s = some (.faulted .pcOutOfRange s.pc none) := by
  simp [stepRecord, hs, hpc]

theorem stepRecord_of_illegal {s : State} {e : DecodeReject} (hs : s.fault = none) (hpc : s.fetchable = true)
    (he : decode s.fetchWord = .error e) :
    stepRecord s = some (.faulted .illegalInstruction s.pc (some s.fetchWord)) := by
  simp [stepRecord, hs, hpc, he]

theorem stepRecord_of_exec {s t : State} {i : Instr} (hs : s.fault = none) (hpc : s.fetchable = true)
    (hi : decode s.fetchWord = .ok i) (ht : exec i s = .next t) :
    stepRecord s = some (executedRecord i s t) := by
  simp [stepRecord, hs, hpc, hi, ht]

/-- What a record says of the step from `s` to `t` that it records. -/
def StepRecord.Describes (r : StepRecord) (s t : State) : Prop :=
  match r with
  | .halted f => s.fault = some f ∧ t = s
  | .faulted c pc w => s.fault = none ∧ pc = s.pc ∧ ∃ info, t.fault = some ⟨c, pc, w, info⟩
  | .waiting pc w => s.fault = none ∧ t = s ∧ pc = s.pc ∧ w = s.fetchWord ∧
      (∃ x, decode w = .ok (.ldVxK x)) ∧ ∀ k : Fin 16, s.key[k.val] = false
  | .executed pc w events => s.fault = none ∧ t.fault = none ∧ pc = s.pc ∧ w = s.fetchWord ∧
      ∃ i, decode w = .ok i ∧ exec i s = .next t ∧ events = eventsOf i s ∧
        ((∀ x y n, i ≠ .drwVxVyN x y n) → events = []) ∧ ∀ x, i = .ldVxK x → ∃ k : Fin 16, s.key[k.val] = true

/-- The record of an executed instruction tells its fault, its wait or its events. -/
theorem executedRecord_describes {s t : State} {i : Instr} (hs : s.fault = none) (hi : decode s.fetchWord = .ok i)
    (ht : exec i s = .next t) : (executedRecord i s t).Describes s t := by
  unfold executedRecord
  cases hf : t.fault with
  | some f =>
    obtain ⟨r, -, -, rfl⟩ := exec_raised hs ht hf
    exact ⟨hs, rfl, r.info, hf⟩
  | none =>
    cases hw : waitsForKey i s with
    | true =>
      obtain ⟨⟨x, rfl⟩, hno⟩ := waitsForKey_iff.1 hw
      rw [exec_ldVxK_of_no_key hno] at ht
      exact ⟨hs, (Host.Outcome.next.inj ht).symm, rfl, rfl, ⟨x, hi⟩, hno⟩
    | false =>
      refine ⟨hs, hf, rfl, rfl, i, hi, ht, rfl, eventsOf_eq_nil, ?_⟩
      rintro x rfl
      by_contra hno
      exact Bool.eq_false_iff.1 hw (waitsForKey_iff.2 ⟨⟨x, rfl⟩, by simpa using hno⟩)

/-- Settles O12: by what the step finds (a latched fault, pc out of range, an illegal word, an instruction), its record
and its next state are both known. -/
theorem stepRecordTellsWhatTheStepDid : Obligations.StepRecordTellsWhatTheStepDid := by
  intro s
  suffices h : ∃ r t, stepRecord s = some r ∧ step s = .next t ∧ r.Describes s t from h
  cases hs : s.fault with
  | some f => exact ⟨_, _, stepRecord_halted hs, step_halted hs, hs, rfl⟩
  | none =>
    cases hpc : s.fetchable with
    | false =>
      exact ⟨_, _, stepRecord_of_not_fetchable hs hpc, step_of_not_fetchable hs hpc, hs, rfl, .none, rfl⟩
    | true =>
      cases hdec : decode s.fetchWord with
      | error e => exact ⟨_, _, stepRecord_of_illegal hs hpc hdec, step_of_illegal hs hpc hdec, hs, rfl, .none, rfl⟩
      | ok i =>
        obtain ⟨t, ht⟩ := everyInstructionAnswersNext i s
        exact ⟨_, t, stepRecord_of_exec hs hpc hdec ht, (step_of_decode hs hpc hdec).trans ht,
          executedRecord_describes hs hdec ht⟩

end Sys2Proof.Machine

end

section
/-! # What an instruction that completes writes (10_state.md)

`Effect` sorts the effects of the 34 instructions by the fields they write. Who writes which field, and the invariant,
follow by cases on it. The values of the registers, pc and the count of draws are left open: nearly every instruction
writes some of them. -/

namespace Sys2Proof.Machine

/-- The next states of instructions that complete, by the fields they write. -/
inductive Effect (s : State) : Instr → State → Prop where
  /-- registers, pc and the count of draws at most -/
  | registers {i : Instr} (v : Vector Byte 16) (pc : Word) (draws : Nat) : Effect s i { s with v, pc, draws }
  | clear (pc : Word) : Effect s .cls { s with disp := Display.clear, pc }
  | draw (x y : Reg) (n : BitVec 4) (v : Vector Byte 16) (pc : Word) :
      Effect s (.drwVxVyN x y n) { s with v, disp := (drawTargets s.disp (s.drawnPixels x y n)).1, pc }
  | pop (pc : Word) (hs : 0 < s.sp.val) :
      Effect s .ret { s with pc, sp := ⟨s.sp.val - 1, Nat.lt_of_le_of_lt (Nat.sub_le _ _) s.sp.isLt⟩ }
  | push (nnn : BitVec 12) (pc : Word) (hs : s.sp.val < 16) :
      Effect s (.callNnn nnn)
        { s with stack := s.stack.set s.sp.val s.pc, sp := ⟨s.sp.val + 1, Nat.succ_lt_succ hs⟩, pc }
  | index {i : Instr} (I pc : Word) :
      ((∃ nnn, i = .ldINnn nnn) ∨ ∃ x, i = .addIVx x ∨ i = .ldFVx x) → Effect s i { s with I, pc }
  | delay (x : Reg) (DT : Byte) (pc : Word) : Effect s (.ldDtVx x) { s with DT, pc }
  | sound (x : Reg) (ST : Byte) (pc : Word) : Effect s (.ldStVx x) { s with ST, pc }
  | store {i : Instr} (x : Reg) (bytes : List Byte) (pc : Word) :
      (i = .ldBVx x ∨ i = .ldMemVx x) → 0x200 ≤ s.I.toNat →
      Effect s i { s with mem := Memory.writeBytes s.mem s.I.toNat bytes, pc }

/-- A store that completes starts at 0x200 or above (R58). -/
theorem low_le_of_store_completes {index : Word} {n : Nat} (hn : 0 < n)
    (h : firstFailure writeCheck index n = none) : 0x200 ≤ index.toNat :=
  ((firstFailure_write_eq_none hn).1 h).1

theorem Effect.of_effectOf {i : Instr} {s : State} (h : failureOf i s = none) : Effect s i (effectOf i s) := by
  cases i with
  | cls => exact .clear _
  | drwVxVyN x y n => exact .draw x y n _ _
  | ret =>
    obtain ⟨hs, he⟩ := effectOf_ret h
    exact he ▸ .pop _ hs
  | callNnn nnn =>
    obtain ⟨hs, he⟩ := effectOf_callNnn h
    exact he ▸ .push nnn _ hs
  | ldINnn nnn => exact .index _ _ (.inl ⟨nnn, rfl⟩)
  | addIVx x => exact .index _ _ (.inr ⟨x, .inl rfl⟩)
  | ldFVx x => exact .index _ _ (.inr ⟨x, .inr rfl⟩)
  | ldDtVx x => exact .delay x _ _
  | ldStVx x => exact .sound x _ _
  | ldBVx x => exact .store x _ _ (.inl rfl) (low_le_of_store_completes (by decide) h)
  | ldMemVx x => exact .store x _ _ (.inr rfl) (low_le_of_store_completes (Nat.succ_pos x.val) h)
  | skpVx x | sknpVx x =>
    simp only [effectOf]
    cases keyIndex (s.getV x) <;> exact .registers _ _ _
  | ldVxK x =>
    simp only [effectOf]
    split <;> exact .registers _ _ _
  | _ => exact .registers _ _ _

/-- What an instruction can do: raise a row of R231's table, the latch alone changing, or have its effect. -/
theorem raises_or_effect {i : Instr} {s t : State} (h : exec i s = .next t) :
    (∃ r, Raises s i r ∧ t = s.latch r.cause (some (encode i)) r.info) ∨ Effect s i t := by
  rcases exec_cases h with ⟨r, hr, ht⟩ | ⟨hnone, rfl⟩
  · exact .inl ⟨r, .of_failureOf hr, ht⟩
  · exact .inr (.of_effectOf hnone)

/-! ### Who writes which field -/

/-- Settles O19: of the effects, only a push writes the stack, and only a push and a pop write sp. -/
theorem onlyCallAndReturnTouchTheStack : Obligations.OnlyCallAndReturnTouchTheStack := by
  intro i s t h
  rcases raises_or_effect h with ⟨r, -, rfl⟩ | he
  · simp
  · cases he <;> simp

/-- Settles O20: each field named is written by one kind of effect, with its own instructions. -/
theorem writersOfIndexTimersMemoryAndKeys : Obligations.WritersOfIndexTimersMemoryAndKeys := by
  intro i s t h
  rcases raises_or_effect h with ⟨r, -, rfl⟩ | he
  · simp
  · cases he with
    | index I pc hi => simp [hi]
    | store x bytes pc hi => simpa using fun _ => ⟨x, hi⟩
    | _ => simp

/-- The pixels that differ after DRW are those its sprite hits (R122). -/
theorem pixel_draw_ne_iff {s : State} {x y : Reg} {n : BitVec 4} {p : Nat} (hp : p < 2048) :
    Display.pixel (drawTargets s.disp (s.drawnPixels x y n)).1 p ≠ Display.pixel s.disp p ↔ s.spriteHits x y n p := by
  rw [pixel_drawTargets (drawnPixels_nodup s x y n) s.disp hp, ← mem_drawnPixels]
  cases Display.pixel s.disp p <;> simp

/-- Settles O18: of the effects, only those of CLS and DXYN write the display. -/
theorem onlyClearAndDrawWriteTheDisplay : Obligations.OnlyClearAndDrawWriteTheDisplay := by
  refine ⟨fun i s t h hne => ?writers, fun _ => rfl⟩
  rcases raises_or_effect h with ⟨r, -, rfl⟩ | he
  · exact absurd rfl hne
  · cases he with
    | clear pc => exact .inl ⟨rfl, fun p _ => Display.pixel_clear p⟩
    | draw x y n v pc => exact .inr ⟨x, y, n, rfl, fun p hp => pixel_draw_ne_iff hp⟩
    | _ => exact absurd rfl hne

end Sys2Proof.Machine
end

section
/-! # The invariant of every run (10_state.md, 20_memory.md, 60_exceptions.md) -/

namespace Sys2Proof.Machine

/-! ### Faults keep the invariant -/

@[simp] theorem State.latch_fetchable (s : State) (c : FaultCause) (w : Option Word) (info : FaultInfo) :
    (s.latch c w info).fetchable = s.fetchable := rfl

/-- A state whose latch is set coherently meets the invariant as the state before did. -/
theorem State.Inv.latched {s : State} {c : FaultCause} {w : Option Word} {info : FaultInfo} (hinv : s.Inv)
    (hcoherent : FaultRecord.coherent ⟨c, s.pc, w, info⟩ (s.latch c w info) = true) : (s.latch c w info).Inv where
  memory := hinv.memory
  low := hinv.low
  pc := hinv.pc
  returns := hinv.returns
  latch := by
    rintro f hf
    obtain rfl := Option.some.inj hf
    exact hcoherent

/-- What an instruction raises is coherent: its row of R231's table is what coherence asks. -/
theorem Raises.coherent {i : Instr} {s : State} {r : Raise} (h : Raises s i r) :
    FaultRecord.coherent ⟨r.cause, s.pc, some (encode i), r.info⟩
      (s.latch r.cause (some (encode i)) r.info) = true := by
  cases h <;> simp [FaultRecord.coherent, legal_encode, *]

/-! ### Instructions keep the invariant -/

theorem pc_add_le {pc k : Word} {m n : Nat} (hpc : pc.toNat ≤ m) (hk : k.toNat ≤ n) (h : m + n ≤ 0x10FE) :
    (pc + k).toNat ≤ 0x10FE := by
  rw [BitVec.toNat_add]
  omega

/-- From a fetchable pc, the largest pc an instruction can leave is 0x10FE, that of JP V0 (R25, R147). -/
theorem effectOf_pc_le {i : Instr} {s : State} (hpc : s.pc.toNat ≤ 0xFFE) (hreturns : s.returnsFetchable)
    (h : failureOf i s = none) : (effectOf i s).pc.toNat ≤ 0x10FE := by
  have advanced : (s.pc + 2).toNat ≤ 0x10FE := pc_add_le hpc (n := 2) (by decide) (by decide)
  have skipped (c : Bool) : (s.skipped c).pc.toNat ≤ 0x10FE := by
    cases c
    · exact advanced
    · exact pc_add_le hpc (n := 4) (by decide) (by decide)
  have target (nnn : BitVec 12) : (addressImmediate nnn).toNat ≤ 0xFFF := by
    rw [addressImmediate_toNat]
    exact Nat.le_of_lt_succ nnn.isLt
  cases i with
  | ret =>
    obtain ⟨hs, he⟩ := effectOf_ret h
    have hentry := (hreturns ⟨s.sp.val - 1, by omega⟩ (by simpa using hs)).2
    rw [he]
    exact pc_add_le hentry (n := 2) (by decide) (by decide)
  | callNnn nnn =>
    obtain ⟨hs, he⟩ := effectOf_callNnn h
    rw [he]
    exact (target nnn).trans (by decide)
  | jpNnn nnn => exact (target nnn).trans (by decide)
  | jpV0Nnn nnn =>
    have hv0 : ((s.getV 0).zeroExtend 16).toNat ≤ 0xFF := by
      have := (s.getV 0).isLt
      simp only [BitVec.toNat_setWidth]
      omega
    exact pc_add_le (target nnn) hv0 (by decide)
  | seVxNn x nn | sneVxNn x nn | seVxVy x y | sneVxVy x y => exact skipped _
  | skpVx x | sknpVx x =>
    simp only [effectOf]
    cases keyIndex (s.getV x)
    · exact hpc.trans (by decide)
    · exact skipped _
  | ldVxK x =>
    simp only [effectOf]
    split
    · exact hpc.trans (by decide)
    · exact advanced
  | _ => exact advanced

/-- A pop leaves fewer return addresses in use. -/
theorem returnsFetchable_pop {s t : State} (h : s.returnsFetchable) (hstack : t.stack = s.stack)
    (hsp : t.sp.val ≤ s.sp.val) : t.returnsFetchable := by
  intro k hk
  rw [hstack]
  exact h k (by omega)

/-- A push adds the pc of the CALL, which was fetched there. -/
theorem returnsFetchable_push {s t : State} (h : s.returnsFetchable) (hpc : s.fetchable = true)
    {hs : s.sp.val < 16} (hstack : t.stack = s.stack.set s.sp.val s.pc) (hsp : t.sp.val = s.sp.val + 1) :
    t.returnsFetchable := by
  intro k hk
  simp only [hstack, Vector.getElem_set]
  split
  · exact fetchable_iff.1 hpc
  · exact h k (by omega)

/-- An instruction that completes from a fetched pc keeps the invariant. -/
theorem State.Inv.effect {i : Instr} {s t : State} (hinv : s.Inv) (hs : s.fault = none) (hpc : s.fetchable = true)
    (he : Effect s i t) (ht : t.pc.toNat ≤ 0x10FE) : t.Inv := by
  obtain ⟨hmem, hlow, -, hreturns, -⟩ := hinv
  cases he with
  | pop pc _ => exact ⟨hmem, hlow, ht, returnsFetchable_pop hreturns rfl (Nat.sub_le _ _), by simp [hs]⟩
  | push nnn pc hsp => exact ⟨hmem, hlow, ht, returnsFetchable_push hreturns hpc (hs := hsp) rfl rfl, by simp [hs]⟩
  | store x bytes pc _ hI =>
    exact ⟨Memory.writeBytes_wf hmem _ _, Memory.writeBytes_low hlow hI _, ht, hreturns, by simp [hs]⟩
  | _ => exact ⟨hmem, hlow, ht, hreturns, by simp [hs]⟩

/-- Settles O14: a step latches a coherent fault, or its instruction has an effect from a fetched pc. -/
theorem stepKeepsTheInvariant : Obligations.StepKeepsTheInvariant := by
  intro s t hinv h
  rcases step_cases h with ⟨-, rfl⟩ | ⟨-, hpc, rfl⟩ | ⟨-, -, ⟨e, he⟩, rfl⟩ | ⟨hs, hpc, i, -, hexec⟩
  · exact hinv
  · exact hinv.latched (by simp [FaultRecord.coherent, hpc])
  · exact hinv.latched (by simp [FaultRecord.coherent, not_legal_of_decode_error he])
  · rcases exec_cases hexec with ⟨r, hr, rfl⟩ | ⟨hnone, rfl⟩
    · exact hinv.latched (Raises.of_failureOf hr).coherent
    · exact hinv.effect hs hpc (.of_effectOf hnone) (effectOf_pc_le (fetchable_iff.1 hpc).2 hinv.returns hnone)

/-! ### Transactions keep the invariant -/

/-- What a transaction can do (R258). -/
inductive Transacts (s : State) : Transaction → State → Prop where
  | unchanged {tr : Transaction} : Transacts s tr s
  | reset : Transacts s .reset s.afterReset
  | load {bytes : List Byte} : s.fault = none → Transacts s (.loadProgram bytes) (s.store 0x200 bytes)
  | step {t : State} : Machine.step s = .next t → Transacts s .step t
  /-- keys and timers at most -/
  | inputs {tr : Transaction} (key : Vector Bool 16) (DT ST : Byte) :
      s.fault = none → Transacts s tr { s with key, DT, ST }
  | dumpFault {start stop : Int} : s.fault = none → (dumpBound start && dumpBound stop) = false →
      Transacts s (.dumpMemory start stop) (s.latch .dumpRange none (.bounds start stop))

theorem unlessHalted_of_running {s : State} (hs : s.fault = none) (s' : State) : unlessHalted s s' = (s', .done) := by
  simp [unlessHalted, hs]

theorem unlessHalted_of_halted {s : State} {f : FaultRecord} (hs : s.fault = some f) (s' : State) :
    unlessHalted s s' = (s, .refused) := by
  simp [unlessHalted, hs]

/-- A host write has its effect on a running block and none on a halted one (R259). -/
theorem Transacts.of_unlessHalted {tr : Transaction} {s s' : State} (h : s.fault = none → Transacts s tr s') :
    Transacts s tr (unlessHalted s s').1 := by
  cases hs : s.fault with
  | none =>
    rw [unlessHalted_of_running hs]
    exact h hs
  | some f =>
    rw [unlessHalted_of_halted hs]
    exact .unchanged

/-- A step always answers a next state and its record. -/
theorem hostStep_eq (s : State) :
    ∃ r t, stepRecord s = some r ∧ step s = .next t ∧ s.hostStep = (t, .stepped r) := by
  obtain ⟨r, t, hr, ht, -⟩ := stepRecordTellsWhatTheStepDid s
  exact ⟨r, t, hr, ht, by simp [State.hostStep, hr, ht]⟩

theorem Transacts.of_transact (tr : Transaction) (s : State) : Transacts s tr (transact tr s).1 := by
  cases tr with
  | reset => exact .reset
  | loadProgram bytes =>
    simp only [transact, State.loadProgram]
    split
    · exact .of_unlessHalted .load
    · exact .unchanged
  | step =>
    obtain ⟨r, t, -, ht, heq⟩ := hostStep_eq s
    rw [transact, heq]
    exact .step ht
  | setKey k down =>
    simp only [transact, State.setKey]
    split
    · exact .of_unlessHalted (.inputs _ _ _)
    · exact .unchanged
  | tickDelay | tickSound | tickTimers => exact .of_unlessHalted (.inputs _ _ _)
  | readDisplay | soundActive | readStatus => exact .unchanged
  | dumpMemory start stop =>
    simp only [transact, State.dumpMemory]
    split
    · exact .unchanged
    · next hbound =>
      cases hs : s.fault with
      | none => exact .dumpFault hs (by simpa using hbound)
      | some f => exact .unchanged

/-- Settles O13: memory lists nothing, pc is 0x200, the stack is empty and no fault is latched. -/
theorem resetMeetsTheInvariant : Obligations.ResetMeetsTheInvariant where
  memory := State.reset_wf
  low := by simp [State.lowMemoryIntact]
  pc := by decide
  returns := by simp [State.returnsFetchable]
  latch := by simp

/-- The invariant reads neither the count of draws nor the keys and timers. -/
theorem State.Inv.afterReset (s : State) : s.afterReset.Inv := by
  obtain ⟨hmem, hlow, hpc, hreturns, hlatch⟩ := resetMeetsTheInvariant
  exact ⟨hmem, hlow, hpc, hreturns, hlatch⟩

/-- Settles O15: by cases on what a transaction can do. -/
theorem transactionsKeepTheInvariant : Obligations.TransactionsKeepTheInvariant := by
  intro tr s hinv
  have h := Transacts.of_transact tr s
  generalize (transact tr s).1 = t at h ⊢
  cases h with
  | unchanged => exact hinv
  | reset => exact .afterReset s
  | load hs =>
    exact ⟨Memory.writeBytes_wf hinv.memory _ _, Memory.writeBytes_low hinv.low (Nat.le_refl _) _, hinv.pc,
      hinv.returns, by simp [hs]⟩
  | step ht => exact stepKeepsTheInvariant s t hinv ht
  | inputs key DT ST hs => exact ⟨hinv.memory, hinv.low, hinv.pc, hinv.returns, by simp [hs]⟩
  | dumpFault _ hbound => exact hinv.latched (by simp [FaultRecord.coherent, hbound])

/-! ### Low memory and halted blocks -/

theorem exec_read_low {i : Instr} {s t : State} {a : Nat} (ha : a < 0x200) (h : exec i s = .next t) :
    Memory.read t.mem a = Memory.read s.mem a := by
  rcases raises_or_effect h with ⟨r, -, rfl⟩ | he
  · rfl
  · cases he with
    | store x bytes pc _ hI => exact Memory.read_writeBytes_below _ _ (Nat.lt_of_lt_of_le ha hI)
    | _ => rfl

theorem step_read_low {s t : State} {a : Nat} (ha : a < 0x200) (h : step s = .next t) :
    Memory.read t.mem a = Memory.read s.mem a := by
  rcases step_cases h with ⟨-, rfl⟩ | ⟨-, -, rfl⟩ | ⟨-, -, -, rfl⟩ | ⟨-, -, i, -, hexec⟩
  · rfl
  · rfl
  · rfl
  · exact exec_read_low ha hexec

/-- Settles O16: what is written at all, by a load or by a store that completes, starts at 0x200 or above. -/
theorem onlyResetWritesLowMemory : Obligations.OnlyResetWritesLowMemory := by
  intro tr s a hne ha
  have h := Transacts.of_transact tr s
  generalize (transact tr s).1 = t at h ⊢
  cases h with
  | reset => exact absurd rfl hne
  | load _ => exact Memory.read_writeBytes_below _ _ ha
  | step ht => exact step_read_low ha ht
  | _ => rfl

/-- A halted block is left alone by every transaction but reset (R109, R234, R259). -/
theorem Transacts.eq_of_halted {tr : Transaction} {s t : State} {f : FaultRecord} (h : Transacts s tr t)
    (hs : s.fault = some f) (hne : tr ≠ .reset) : t = s := by
  cases h with
  | unchanged => rfl
  | reset => exact absurd rfl hne
  | step ht => exact (Host.Outcome.next.inj ((step_halted hs).symm.trans ht)).symm
  | load hrun | inputs _ _ _ hrun | dumpFault hrun _ => cases hs.symm.trans hrun

/-- Settles O17: each host write is refused, and a step finds the latch set. -/
theorem haltedBlockIsFrozen : Obligations.HaltedBlockIsFrozen := by
  refine fun tr s f hs hne => ⟨(Transacts.of_transact tr s).eq_of_halted hs hne, ?record⟩
  case record =>
    obtain ⟨r, t, hr, -, heq⟩ := hostStep_eq s
    obtain rfl := Option.some.inj ((stepRecord_halted hs).symm.trans hr)
    rw [transact, heq]

end Sys2Proof.Machine

end

section
/-! # Control transfer (42_control_transfer.md) -/

namespace Sys2Proof.Machine

/-! ### RET and CALL -/

/-- RET below a call goes to the popped address plus 2 (R140). -/
theorem exec_ret_of_pos {s : State} (h : 0 < s.sp.val) : exec .ret s =
    .next { s with pc := s.stack[s.sp.val - 1] + 2, sp := ⟨s.sp.val - 1, by omega⟩ } := by
  have hnone : failureOf .ret s = none := if_neg fun hsp => by simp [hsp] at h
  obtain ⟨_, he⟩ := effectOf_ret hnone
  rw [exec_of_no_failure hnone, he]

/-- Settles O29: by whether the stack is empty. -/
theorem retPopsAndResumes : Obligations.RetPopsAndResumes :=
  ⟨decode_encode .ret, fun _ => ⟨exec_ret_of_pos, fun hsp => exec_of_failure (i := .ret) (if_pos hsp)⟩⟩

/-- CALL below depth 16 pushes its own address and jumps (R142). -/
theorem exec_callNnn_of_lt {nnn : BitVec 12} {s : State} (h : s.sp.val < 16) : exec (.callNnn nnn) s =
    .next { s with stack := s.stack.set s.sp.val s.pc, sp := ⟨s.sp.val + 1, by omega⟩, pc := 0x0#4 ++ nnn } := by
  have hnone : failureOf (.callNnn nnn) s = none := if_neg fun hsp => by simp [hsp] at h
  obtain ⟨_, he⟩ := effectOf_callNnn hnone
  rw [exec_of_no_failure hnone, he, addressImmediate_eq]

/-- Settles O31: by whether the stack is full. -/
theorem callPushesAndJumps : Obligations.CallPushesAndJumps := fun nnn _ =>
  ⟨decode_encode (.callNnn nnn), exec_callNnn_of_lt, fun hsp => exec_of_failure (i := .callNnn nnn) (if_pos hsp)⟩

/-! ### Jumps -/

theorem exec_jpNnn (nnn : BitVec 12) (s : State) : exec (.jpNnn nnn) s = .next { s with pc := 0x0#4 ++ nnn } := by
  rw [exec_of_no_failure rfl, effectOf, addressImmediate_eq]

/-- Settles O30: a target outside the fetchable range is found by the step after the jump. -/
theorem jumpSetsPc : Obligations.JumpSetsPc := by
  refine fun nnn s => ⟨decode_encode (.jpNnn nnn), exec_jpNnn nnn s, fun hs hrange => ?faults⟩
  case faults =>
    refine stepOutsideFetchRangeFaults _ hs ?_
    rw [← addressImmediate_eq, addressImmediate_toNat]
    omega

theorem exec_jpV0Nnn (nnn : BitVec 12) (s : State) :
    exec (.jpV0Nnn nnn) s = .next { s with pc := addressImmediate nnn + (s.getV 0).zeroExtend 16 } :=
  exec_of_no_failure rfl

/-- The largest target of JP V0 is 0xFFF + 0xFF, so the sum does not wrap (R147). -/
theorem toNat_jpV0_target (nnn : BitVec 12) (b : Byte) :
    (addressImmediate nnn + b.zeroExtend 16).toNat = nnn.toNat + b.toNat := by
  have := nnn.isLt
  have := b.isLt
  rw [BitVec.toNat_add, addressImmediate_toNat, BitVec.toNat_setWidth]
  omega

/-- Settles O34: the sum is exact, and the next step checks it. -/
theorem jumpPlusV0 : Obligations.JumpPlusV0 := by
  refine fun nnn s => ⟨decode_encode (.jpV0Nnn nnn), _, exec_jpV0Nnn nnn s, ?sum, rfl, fun hs hrange => ?faults⟩
  case sum => exact toNat_jpV0_target nnn (s.getV 0)
  case faults => exact stepOutsideFetchRangeFaults _ hs (hrange.imp id id)

/-! ### Skips -/

theorem exec_sneVxNn (x : Reg) (nn : Byte) (s : State) :
    exec (.sneVxNn x nn) s = .next (s.skipped (s.getV x != nn)) :=
  exec_of_no_failure rfl

theorem exec_seVxVy (x y : Reg) (s : State) : exec (.seVxVy x y) s = .next (s.skipped (s.getV x == s.getV y)) :=
  exec_of_no_failure rfl

theorem exec_sneVxVy (x y : Reg) (s : State) : exec (.sneVxVy x y) s = .next (s.skipped (s.getV x != s.getV y)) :=
  exec_of_no_failure rfl

/-- A skip on a decided inequality, with the equality itself as the condition. -/
theorem State.skipped_bne (s : State) (a b : Byte) :
    s.skipped (a != b) = { s with pc := if a = b then s.pc + 2 else s.pc + 4 } := by
  rw [bne, State.skipped_not]
  simp

theorem decode_family5_error {x y : Reg} {n : BitVec 4} (hn : n ≠ 0) :
    decode (0x5#4 ++ x.bits ++ y.bits ++ n) = .error .family5 := by
  simpa [decode] using hn

theorem decode_family9_error {x y : Reg} {n : BitVec 4} (hn : n ≠ 0) :
    decode (0x9#4 ++ x.bits ++ y.bits ++ n) = .error .family9 := by
  simpa [decode] using hn

/-- Settles O33: each skip completes with its effect, the skip on its own condition. -/
theorem otherSkips : Obligations.OtherSkips := by
  refine fun x y nn n s => ⟨decode_encode (.sneVxNn x nn), ?sneImmediate, decode_encode (.seVxVy x y), ?se,
    decode_encode (.sneVxVy x y), ?sne, fun hn => ⟨decode_family5_error hn, decode_family9_error hn⟩⟩
  case sneImmediate => rw [exec_sneVxNn, State.skipped_bne, State.getV]
  case se => rw [exec_seVxVy, State.skipped_beq, State.getV, State.getV]
  case sne => rw [exec_sneVxVy, State.skipped_bne, State.getV, State.getV]

end Sys2Proof.Machine

end

section
/-! # Arithmetic with a flag, the random byte, and the sum with I (43_alu.md, 44_index_memory.md) -/

namespace Sys2Proof.Machine

/-! ### The flag-writing instructions -/

/-- An instruction whose one check is the operand check faults exactly when it names VF (R106). -/
theorem exec_of_flagOperandConflict {i : Instr} {s : State} (hi : failureOf i s = flagOperandFailure i)
    (hconflict : flagOperandConflict i = true) :
    exec i s = .next { s with fault := some ⟨.flagOperand, s.pc, some (encode i), .none⟩ } := by
  refine exec_of_failure (r := ⟨.flagOperand, .none⟩) ?_
  rw [hi, flagOperandFailure, if_pos hconflict]

/-- An instruction whose one check is the operand check, and whose effect is a result and a flag, writes Vx, VF and pc
and nothing else when it does not name VF. -/
theorem exec_of_effect_setVFlag {i : Instr} {s : State} {x : Reg} {b flag : Byte}
    (hi : failureOf i s = flagOperandFailure i) (hconflict : flagOperandConflict i = false)
    (he : effectOf i s = (s.setVFlag x b flag).advanced) :
    exec i s = .next { s with v := (s.v.set x.val b).set 15 flag, pc := s.pc + 2 } := by
  rw [exec_of_no_failure (hi.trans (flagOperandFailure_eq_none.2 hconflict)), he]
  rfl

/-! The results and flags as the spec writes them, on the values of the operands. -/

theorem byte_sub_eq (a b : Byte) : a - b = BitVec.ofNat 8 (a.toNat + 256 - b.toNat) := by
  bv_omega

theorem byte_shiftRight_one_eq (a : Byte) : a >>> 1 = BitVec.ofNat 8 (a.toNat / 2) := by
  refine BitVec.eq_of_toNat_eq ?_
  have := a.isLt
  simp [Nat.shiftRight_succ]
  omega

theorem byte_shiftLeft_one_eq (a : Byte) : a <<< 1 = BitVec.ofNat 8 (a.toNat * 2) := by
  refine BitVec.eq_of_toNat_eq ?_
  simp [Nat.shiftLeft_succ, Nat.mul_comm]

theorem flagByte_decide (p : Prop) [Decidable p] : flagByte (decide p) = if p then 1 else 0 := by
  simp [flagByte]

theorem carryFlag_eq (a b : Byte) : carryFlag a b = if 255 < a.toNat + b.toNat then 1 else 0 := by
  have := a.isLt
  rw [carryFlag, flagByte_decide]
  congr 1
  exact propext (by omega)

theorem flagByte_getLsbD (a : Byte) (i : Nat) :
    flagByte (a.getLsbD i) = BitVec.ofNat 8 (a.toNat / 2 ^ i % 2) := by
  rw [BitVec.getLsbD, Nat.testBit_eq_decide_div_mod_eq, flagByte_decide]
  rcases Nat.mod_two_eq_zero_or_one (a.toNat / 2 ^ i) with h | h <;> simp [h]

theorem shrFlag_eq (a : Byte) : shrFlag a = BitVec.ofNat 8 (a.toNat % 2) := by
  rw [shrFlag, flagByte_getLsbD, Nat.pow_zero, Nat.div_one]

theorem shlFlag_eq (a : Byte) : shlFlag a = BitVec.ofNat 8 (a.toNat / 128) := by
  have hbit : a.toNat / 128 < 2 := by have := a.isLt; omega
  rw [shlFlag, flagByte_getLsbD, show 2 ^ 7 = 128 by decide, Nat.mod_eq_of_lt hbit]

/-- Settles O38: the carry is the overflow of the sum. -/
theorem addWithCarry : Obligations.AddWithCarry := by
  refine fun x y s => ⟨decode_encode (.addVxVy x y), fun hx hy => ?completes, fun h => ?faults⟩
  case completes =>
    rw [← carryFlag_eq, ← BitVec.add_def]
    exact exec_of_effect_setVFlag rfl (by simp [flagOperandConflict, hx, hy]) rfl
  case faults => exact exec_of_flagOperandConflict (i := .addVxVy x y) rfl (by simpa [flagOperandConflict] using h)

/-- Settles O39: the flag compares the two operands as numbers. -/
theorem subtractStrictFlag : Obligations.SubtractStrictFlag := by
  refine fun x y s => ⟨decode_encode (.subVxVy x y), fun hx hy => ?completes, fun h => ?faults⟩
  case completes =>
    rw [← byte_sub_eq, ← flagByte_decide]
    exact exec_of_effect_setVFlag rfl (by simp [flagOperandConflict, hx, hy]) rfl
  case faults => exact exec_of_flagOperandConflict (i := .subVxVy x y) rfl (by simpa [flagOperandConflict] using h)

/-- Settles O40: as SUB, with the operands exchanged. -/
theorem reverseSubtractStrictFlag : Obligations.ReverseSubtractStrictFlag := by
  refine fun x y s => ⟨decode_encode (.subnVxVy x y), fun hx hy => ?completes, fun h => ?faults⟩
  case completes =>
    rw [← byte_sub_eq, ← flagByte_decide]
    exact exec_of_effect_setVFlag rfl (by simp [flagOperandConflict, hx, hy]) rfl
  case faults => exact exec_of_flagOperandConflict (i := .subnVxVy x y) rfl (by simpa [flagOperandConflict] using h)

/-- Settles O41: the bit shifted out is the remainder by 2. -/
theorem shiftRight : Obligations.ShiftRight := by
  refine fun x y s => ⟨decode_encode (.shrVx x y), fun hx => ?completes, fun h => ?faults⟩
  case completes =>
    rw [← byte_shiftRight_one_eq, ← shrFlag_eq]
    exact exec_of_effect_setVFlag rfl (by simp [flagOperandConflict, hx]) rfl
  case faults => exact exec_of_flagOperandConflict (i := .shrVx x y) rfl (by simpa [flagOperandConflict] using h)

/-- Settles O42: the bit shifted out is the quotient by 128. -/
theorem shiftLeft : Obligations.ShiftLeft := by
  refine fun x y s => ⟨decode_encode (.shlVx x y), fun hx => ?completes, fun h => ?faults⟩
  case completes =>
    rw [← byte_shiftLeft_one_eq, ← shlFlag_eq]
    exact exec_of_effect_setVFlag rfl (by simp [flagOperandConflict, hx]) rfl
  case faults => exact exec_of_flagOperandConflict (i := .shlVx x y) rfl (by simpa [flagOperandConflict] using h)

/-- Settles O43: CXNN raises nothing, and its byte is whatever the free draw gives, masked. -/
theorem randomByteIsMasked : Obligations.RandomByteIsMasked := fun x nn _ =>
  ⟨decode_encode (.rndVxNn x nn), exec_of_no_failure rfl⟩

/-- Settles O45: the sum of two words is the sum of their values modulo 2^16, and Vx is zero-extended. -/
theorem addToIndex : Obligations.AddToIndex := by
  refine fun x s => ⟨decode_encode (.addIVx x), ?effect⟩
  case effect =>
    have hsum : s.I + (s.getV x).zeroExtend 16 = BitVec.ofNat 16 (s.I.toNat + (s.getV x).toNat) := by
      bv_omega
    exact hsum ▸ exec_of_effect_setI rfl rfl

end Sys2Proof.Machine

end

section
/-! # VF and ST across all instructions (10_state.md R22, R29) -/

namespace Sys2Proof.Machine

/-! ### Writers of VF -/

/-- A write to one register that changes VF is a write to VF. -/
theorem eq_flag_of_set_ne {v : Vector Byte 16} {x : Reg} {b : Byte} (h : (v.set x.val b)[15] ≠ v[15]) : x = 15 := by
  by_contra hx
  have hne : x.val ≠ 15 := fun e => hx (Fin.ext e)
  exact h (Vector.getElem_set_ne _ _ hne)

/-- FX65 reaches VF only when its field is 15 (D28). -/
theorem eq_flag_of_setFirst_ne {s : State} {x : Reg} {bytes : List Byte} (hlen : bytes.length = x.val + 1)
    (h : (s.setFirst bytes).v[15] ≠ s.v[15]) : x = 15 := by
  by_contra hx
  have hne : x.val ≠ 15 := fun e => hx (Fin.ext e)
  have hlast : bytes[15]? = none := List.getElem?_eq_none (by omega)
  exact h (by simp [hlast])

theorem effectOf_skpVx_v (x : Reg) (s : State) : (effectOf (.skpVx x) s).v = s.v := by
  simp only [effectOf]
  cases keyIndex (s.getV x) <;> rfl

theorem effectOf_sknpVx_v (x : Reg) (s : State) : (effectOf (.sknpVx x) s).v = s.v := by
  simp only [effectOf]
  cases keyIndex (s.getV x) <;> rfl

/-- Settles O21: of the instructions that write registers, those with one destination write VF when it is V15. -/
theorem writersOfTheFlagRegister : Obligations.WritersOfTheFlagRegister := by
  intro i s t h hne
  rcases exec_cases h with ⟨r, -, rfl⟩ | ⟨hnone, rfl⟩
  · exact absurd rfl hne
  cases i with
  | addVxVy x y | subVxVy x y | shrVx x y | subnVxVy x y | shlVx x y => exact .inl ⟨x, y, 0, by simp⟩
  | drwVxVyN x y n => exact .inl ⟨x, y, n, by simp⟩
  | ldVxNn x nn | addVxNn x nn | rndVxNn x nn =>
    obtain rfl := eq_flag_of_set_ne hne
    exact .inr (.inl ⟨0, nn, by simp⟩)
  | ldVxVy x y | orVxVy x y | andVxVy x y | xorVxVy x y =>
    obtain rfl := eq_flag_of_set_ne hne
    exact .inr (.inl ⟨y, 0, by simp⟩)
  | ldVxDt x =>
    obtain rfl := eq_flag_of_set_ne hne
    exact .inr (.inl ⟨0, 0, by simp⟩)
  | ldVxK x =>
    by_cases hdown : ∃ k : Fin 16, s.key[k.val] = true
    · obtain ⟨k, -, hexec⟩ := exec_ldVxK_of_key (x := x) hdown
      rw [← Host.Outcome.next.inj (hexec.symm.trans h)] at hne
      obtain rfl := eq_flag_of_set_ne hne
      exact .inr (.inl ⟨0, 0, by simp⟩)
    · have hexec := exec_ldVxK_of_no_key (x := x) (s := s) (by simpa using hdown)
      rw [← Host.Outcome.next.inj (hexec.symm.trans h)] at hne
      exact absurd rfl hne
  | ldVxMem x =>
    obtain rfl := eq_flag_of_setFirst_ne (s := s) (Memory.readBytes_length s.mem _ (x.val + 1)) hne
    exact .inr (.inr rfl)
  | ret =>
    obtain ⟨_, he⟩ := effectOf_ret hnone
    exact absurd (by rw [he]) hne
  | callNnn nnn =>
    obtain ⟨_, he⟩ := effectOf_callNnn hnone
    exact absurd (by rw [he]) hne
  | skpVx x => exact absurd (by rw [effectOf_skpVx_v]) hne
  | sknpVx x => exact absurd (by rw [effectOf_sknpVx_v]) hne
  | _ => exact absurd rfl hne

/-! ### No reader of ST -/

/-- No check reads ST. -/
theorem failureOf_with_ST (i : Instr) (s : State) (b : Byte) : failureOf i { s with ST := b } = failureOf i s := by
  cases i <;> rfl

/-- An effect from another ST differs in ST at most. -/
theorem effectOf_with_ST (i : Instr) (s : State) (b : Byte) :
    { effectOf i { s with ST := b } with ST := (effectOf i s).ST } = effectOf i s := by
  cases i with
  | ret =>
    simp only [effectOf, State.pop]
    split <;> rfl
  | callNnn nnn =>
    simp only [effectOf, State.push]
    split <;> rfl
  | skpVx x | sknpVx x =>
    simp only [effectOf, State.getV]
    cases keyIndex s.v[x.val] <;> rfl
  | ldVxK x =>
    simp only [effectOf]
    split <;> rfl
  | _ => rfl

/-- Settles O22: neither the check nor the effect of an instruction reads ST. -/
theorem noInstructionReadsTheSoundTimer : Obligations.NoInstructionReadsTheSoundTimer := by
  intro i s t b h
  rcases exec_cases h with ⟨r, hr, rfl⟩ | ⟨hnone, rfl⟩
  · exact ⟨_, exec_of_failure ((failureOf_with_ST i s b).trans hr), rfl⟩
  · exact ⟨_, exec_of_no_failure ((failureOf_with_ST i s b).trans hnone), effectOf_with_ST i s b⟩

end Sys2Proof.Machine

end

section
/-! # Memory and the transfers (20_memory.md, 44_index_memory.md) -/

namespace Sys2Proof.Machine

/-! ### Canonical memory -/

theorem Memory.read_of_forall_ne {m : List Host.Cell} {a : Nat} (h : ∀ c ∈ m, c.1 ≠ a) :
    Memory.read m a = Memory.background a := by
  induction m with
  | nil => rfl
  | cons c m ih =>
    obtain ⟨hc, hm⟩ := List.forall_mem_cons.1 h
    rw [Memory.read, if_neg hc, ih hm]

theorem Memory.read_of_mem {m : List Host.Cell} (hm : m.Pairwise fun c d => c.1 < d.1) {c : Host.Cell} (hc : c ∈ m) :
    Memory.read m c.1 = c.2 := by
  induction m with
  | nil => cases hc
  | cons d m ih =>
    obtain ⟨hd, hm⟩ := List.pairwise_cons.1 hm
    rcases List.mem_cons.1 hc with rfl | hc
    · simp [Memory.read]
    · rw [Memory.read, if_neg (Nat.ne_of_lt (hd c hc)), ih hm hc]

/-- A canonical memory lists exactly the bytes that differ from their background. -/
theorem Memory.mem_iff_read {m : List Host.Cell} (hm : Memory.wf m) (c : Host.Cell) :
    c ∈ m ↔ c.1 < 0x1000 ∧ Memory.read m c.1 = c.2 ∧ c.2 ≠ Memory.background c.1 := by
  constructor
  · intro hc
    obtain ⟨hlt, hne⟩ := hm.2 c hc
    exact ⟨hlt, Memory.read_of_mem hm.1 hc, hne⟩
  · rintro ⟨-, hread, hne⟩
    by_contra hc
    have habsent : ∀ d ∈ m, d.1 ≠ c.1 := by
      rintro d hd heq
      have : d.2 = c.2 := by rw [← Memory.read_of_mem hm.1 hd, heq, hread]
      exact hc (Prod.ext heq this ▸ hd)
    exact hne (hread.symm.trans (Memory.read_of_forall_ne habsent))

/-- Settles O23: both list the same cells, in the order of their addresses. -/
theorem canonicalMemoryIsUnique : Obligations.CanonicalMemoryIsUnique := by
  intro m m' hm hm' hread
  have hmem : ∀ c, c ∈ m ↔ c ∈ m' := by
    intro c
    rw [Memory.mem_iff_read hm, Memory.mem_iff_read hm']
    exact and_congr_right fun hlt => by rw [hread c.1 hlt]
  have hnodup {l : List Host.Cell} (hl : Memory.wf l) : l.Nodup := hl.1.imp fun hlt heq => by simp [heq] at hlt
  have hperm : m.Perm m' := (List.perm_ext_iff_of_nodup (hnodup hm) (hnodup hm')).2 hmem
  exact hperm.eq_of_pairwise (fun c d _ _ h h' => absurd h (Nat.lt_asymm h')) hm.1 hm'.1

/-! ### Faults of the transfers -/

/-- The access that fails first is the lowest that fails (R235). -/
theorem firstFailure_eq_of_first {check : Nat → Option Raise} {index : Word} {n k : Nat} {r : Raise} (hk : k < n)
    (hlow : ∀ j < k, check (index.toNat + j) = none) (hr : check (index.toNat + k) = some r) :
    firstFailure check index n = some r := by
  obtain ⟨m, rfl⟩ : ∃ m, n = k + (m + 1) := ⟨n - k - 1, by omega⟩
  have hnone : ((List.range k).findSome? fun j => check (effectiveAddress index j)) = none :=
    firstFailure_eq_none.2 hlow
  rw [firstFailure, List.range_add, List.findSome?_append, hnone]
  simp [List.range_succ_eq_map, effectiveAddress, hr]

theorem readCheck_of_ge {a : Nat} (h : 0x1000 ≤ a) : readCheck a = some ⟨.memOutOfRange, .address a⟩ := if_pos h

theorem writeCheck_of_ge {a : Nat} (h : 0x1000 ≤ a) : writeCheck a = some ⟨.memOutOfRange, .address a⟩ := if_pos h

theorem writeCheck_of_lt {a : Nat} (h : a < 0x200) : writeCheck a = some ⟨.lowMemoryWrite, .address a⟩ := by
  rw [writeCheck, if_neg (by omega), if_pos h]

/-- Reads that pass the end of memory fail at its first address past the end (R57). -/
theorem firstFailure_read_past_end {index : Word} {n : Nat} (hn : 0 < n) (h : 0x1000 < index.toNat + n) :
    firstFailure readCheck index n = some ⟨.memOutOfRange, .address (max index.toNat 0x1000)⟩ := by
  have haddr : index.toNat + (0x1000 - index.toNat) = max index.toNat 0x1000 := by omega
  refine firstFailure_eq_of_first (k := 0x1000 - index.toNat) (by omega) (fun j hj => ?_) ?_
  · exact readCheck_eq_none.2 (by omega)
  · rw [haddr, readCheck_of_ge (Nat.le_max_right _ _)]

/-- Writes from 0x200 or above that pass the end of memory fail at its first address past the end (R57, R58). -/
theorem firstFailure_write_past_end {index : Word} {n : Nat} (hlow : 0x200 ≤ index.toNat) (hn : 0 < n)
    (h : 0x1000 < index.toNat + n) :
    firstFailure writeCheck index n = some ⟨.memOutOfRange, .address (max index.toNat 0x1000)⟩ := by
  have haddr : index.toNat + (0x1000 - index.toNat) = max index.toNat 0x1000 := by omega
  refine firstFailure_eq_of_first (k := 0x1000 - index.toNat) (by omega) (fun j hj => ?_) ?_
  · exact writeCheck_eq_none.2 (by omega)
  · rw [haddr, writeCheck_of_ge (Nat.le_max_right _ _)]

/-- Writes that start below 0x200 fail at their first address (R58). -/
theorem firstFailure_write_low {index : Word} {n : Nat} (hn : 0 < n) (h : index.toNat < 0x200) :
    firstFailure writeCheck index n = some ⟨.lowMemoryWrite, .address index.toNat⟩ :=
  firstFailure_eq_of_first hn (fun _ hj => absurd hj (Nat.not_lt_zero _)) (writeCheck_of_lt h)

/-- Settles O48: a store at 0x1000 or above starts above 0x200, since it spans 16 bytes at most. -/
theorem storesFaultBeforeWriting : Obligations.StoresFaultBeforeWriting := by
  refine fun x s => ⟨fun h => ⟨?digitsLow, ?registersLow⟩, fun h => ?digitsEnd, fun h => ?registersEnd⟩
  case digitsLow => exact exec_of_failure (i := .ldBVx x) (firstFailure_write_low (by decide) h)
  case registersLow => exact exec_of_failure (i := .ldMemVx x) (firstFailure_write_low (Nat.succ_pos _) h)
  case digitsEnd =>
    exact exec_of_failure (i := .ldBVx x) (firstFailure_write_past_end (by omega) (by decide) (by omega))
  case registersEnd =>
    exact exec_of_failure (i := .ldMemVx x) (firstFailure_write_past_end (by omega) (Nat.succ_pos _) (by omega))

/-! ### Stores -/

theorem exec_ldBVx {x : Reg} {s : State} (hlow : 0x200 ≤ s.I.toNat) (hend : s.I.toNat + 2 < 0x1000) :
    exec (.ldBVx x) s = .next (s.store s.I.toNat (bcdDigits (s.getV x))).advanced :=
  exec_of_no_failure ((firstFailure_write_eq_none (by decide)).2 ⟨hlow, by omega⟩)

theorem exec_ldMemVx {x : Reg} {s : State} (hlow : 0x200 ≤ s.I.toNat) (hend : s.I.toNat + x.val < 0x1000) :
    exec (.ldMemVx x) s = .next (s.store s.I.toNat (s.firstRegs x)).advanced :=
  exec_of_no_failure ((firstFailure_write_eq_none (Nat.succ_pos _)).2 ⟨hlow, by omega⟩)

/-- A store changes no byte outside the addresses it writes. -/
theorem Memory.read_writeBytes_outside (m : List Host.Cell) (bytes : List Byte) {a a' : Nat}
    (h : a' < a ∨ a + bytes.length ≤ a') : Memory.read (Memory.writeBytes m a bytes) a' = Memory.read m a' :=
  h.elim (Memory.read_writeBytes_below m bytes) (Memory.read_writeBytes_above m bytes)

@[simp] theorem bcdDigits_length (b : Byte) : (bcdDigits b).length = 3 := rfl

theorem bcdDigits_getElem_toNat (b : Byte) :
    (bcdDigits b)[0].toNat = b.toNat / 100 ∧ (bcdDigits b)[1].toNat = b.toNat / 10 % 10 ∧
      (bcdDigits b)[2].toNat = b.toNat % 10 := by
  have := b.isLt
  simp [bcdDigits]
  omega

/-- Settles O46: the three bytes stored are the digits, and a store writes nowhere else. -/
theorem storeDecimalDigits : Obligations.StoreDecimalDigits := by
  refine fun x s => ⟨decode_encode (.ldBVx x), fun hm hlow hend => ⟨_, exec_ldBVx hlow hend, rfl, ?_⟩⟩
  have stored (k : Nat) (hk : k < 3) :
      Memory.read (Memory.writeBytes s.mem s.I.toNat (bcdDigits (s.getV x))) (effectiveAddress s.I k) =
        (bcdDigits (s.getV x))[k]'hk :=
    Memory.read_writeBytes_inside hm _ hk (by omega)
  obtain ⟨hundreds, tens, ones⟩ := bcdDigits_getElem_toNat (s.getV x)
  refine ⟨(congrArg BitVec.toNat (stored 0 (by decide))).trans hundreds,
    (congrArg BitVec.toNat (stored 1 (by decide))).trans tens,
    (congrArg BitVec.toNat (stored 2 (by decide))).trans ones, fun a ha => ?frame⟩
  case frame =>
    refine Memory.read_writeBytes_outside _ _ ?_
    simp only [effectiveAddress, bcdDigits_length] at ha ⊢
    omega

theorem read_store_firstRegs {s : State} (hm : Memory.wf s.mem) {x k : Reg} (hend : s.I.toNat + x.val < 0x1000)
    (hk : k ≤ x) : Memory.read (s.store s.I.toNat (s.firstRegs x)).mem (s.I.toNat + k.val) = s.v[k.val] := by
  have hkx : k.val ≤ x.val := hk
  rw [State.store_mem, Memory.read_writeBytes_inside hm _ (by rw [State.firstRegs_length]; omega) (by omega)]
  simp [State.firstRegs]

/-- Settles O47: the byte at offset k is register k, and a store writes nowhere else. -/
theorem storeRegisters : Obligations.StoreRegisters := by
  refine fun x s => ⟨decode_encode (.ldMemVx x), fun hm hlow hend =>
    ⟨_, exec_ldMemVx hlow hend, rfl, fun k hk => read_store_firstRegs hm hend hk, ?frame⟩⟩
  case frame =>
    refine fun a ha => Memory.read_writeBytes_outside _ _ ?_
    simp only [effectiveAddress, State.firstRegs_length] at ha ⊢
    omega

/-! ### Loads -/

theorem exec_ldVxMem {x : Reg} {s : State} (hend : s.I.toNat + x.val < 0x1000) :
    exec (.ldVxMem x) s = .next (s.setFirst (Memory.readBytes s.mem s.I.toNat (x.val + 1))).advanced :=
  exec_of_no_failure (firstFailure_read_eq_none.2 (.inr (by omega)))

/-- Register k after a load of V0 to V[x]. -/
theorem setFirst_readBytes_getElem (s : State) (x k : Reg) :
    (s.setFirst (Memory.readBytes s.mem s.I.toNat (x.val + 1))).v[k.val] =
      if k ≤ x then Memory.read s.mem (s.I.toNat + k.val) else s.v[k.val] := by
  simp only [State.setFirst_v, Vector.getElem_ofFn, Memory.readBytes_getElem?, Nat.lt_succ_iff, Fin.le_def]
  split <;> rfl

/-- Settles O49: by whether the last address is in memory. -/
theorem loadRegisters : Obligations.LoadRegisters := by
  refine fun x s => ⟨decode_encode (.ldVxMem x), fun hend => ⟨_, exec_ldVxMem hend, rfl, ?loads⟩, fun h => ?faults⟩
  case loads => exact setFirst_readBytes_getElem s x
  case faults => exact exec_of_failure (i := .ldVxMem x) (firstFailure_read_past_end (Nat.succ_pos _) (by omega))

/-- Settles O50: the load reads the byte at offset k, which the dump stored from register k. -/
theorem dumpThenLoadRestoresRegisters : Obligations.DumpThenLoadRestoresRegisters := by
  intro x s hm hlow hend
  refine ⟨_, exec_ldMemVx hlow hend, fun u hmem hI => ?_⟩
  have hI' : u.I = s.I := hI
  refine ⟨_, exec_ldVxMem (by rwa [hI']), fun k hk => ?_⟩
  refine (setFirst_readBytes_getElem u x k).trans ?_
  rw [if_pos hk, hmem, hI']
  exact read_store_firstRegs hm hend hk

/-- Settles O51: the two bytes at the next pc are V[k] and V[k + 1] as FX55 stored them. -/
theorem storedBytesAreFetchedNext : Obligations.StoredBytesAreFetchedNext := by
  intro x k i s hm hs hlow hend hk hpc hi
  have hkx : k.val + 1 ≤ x.val := hk
  have fetched (j : Reg) (hj : j ≤ x) :
      Memory.read (s.store s.I.toNat (s.firstRegs x)).mem (s.I.toNat + j.val) = s.v[j.val] :=
    read_store_firstRegs hm hend hj
  have hfirst := fetched k (Nat.le_of_lt hk)
  have hsecond := fetched ⟨k.val + 1, by omega⟩ hk
  rw [← hpc] at hfirst
  rw [← Nat.add_assoc, ← hpc] at hsecond
  refine ⟨_, exec_ldMemVx hlow hend, stepRunsTheDecodedInstruction _ i hs ?low ?high ?decodes⟩
  case low => exact hpc ▸ hlow.trans (Nat.le_add_right _ _)
  case high => exact hpc ▸ (by omega)
  case decodes => exact (congrArg decode (congrArg₂ (· ++ ·) hfirst hsecond)).trans hi

end Sys2Proof.Machine

end

section
/-! # DRW (41_display.md R121 to R125) -/

namespace Sys2Proof.Machine

/-! ### Where DRW faults -/

theorem flagOperandConflict_drwVxVyN {x y : Reg} {n : BitVec 4} :
    flagOperandConflict (.drwVxVyN x y n) = true ↔ x = 15 ∨ y = 15 := by
  simp [flagOperandConflict]

theorem failureOf_drwVxVyN_of_flag {x y : Reg} (n : BitVec 4) (s : State) (h : x = 15 ∨ y = 15) :
    failureOf (.drwVxVyN x y n) s = some ⟨.flagOperand, .none⟩ := by
  rw [failureOf, flagOperandFailure, if_pos (flagOperandConflict_drwVxVyN.2 h), Option.some_or]

/-- With no operand VF, DRW raises what its sprite reads raise. -/
theorem failureOf_drwVxVyN_of_ne_flag {x y : Reg} (n : BitVec 4) (s : State) (hx : x ≠ 15) (hy : y ≠ 15) :
    failureOf (.drwVxVyN x y n) s = firstFailure readCheck s.I n.toNat := by
  rw [failureOf, flagOperandFailure, if_neg (by simp [flagOperandConflict_drwVxVyN, hx, hy]), Option.none_or]

/-- Settles O26: the operand check comes first, and then the first sprite row past the end of memory. -/
theorem drawFaults : Obligations.DrawFaults := by
  refine fun x y n s => ⟨fun h => ?operand, fun hx hy hn hend => ?memory⟩
  case operand => exact exec_of_failure (failureOf_drwVxVyN_of_flag n s h)
  case memory =>
    have hrows : 0 < n.toNat := by bv_omega
    exact exec_of_failure
      ((failureOf_drwVxVyN_of_ne_flag n s hx hy).trans (firstFailure_read_past_end hrows hend))

/-! ### What DRW draws -/

section Draw

variable {x y : Reg} {n : BitVec 4} {s : State}

theorem exec_drwVxVyN (hx : x ≠ 15) (hy : y ≠ 15) (hend : n = 0 ∨ s.I.toNat + n.toNat ≤ 0x1000) :
    exec (.drwVxVyN x y n) s = .next (s.draw (s.drawnPixels x y n)).advanced := by
  refine exec_of_no_failure ?_
  rw [failureOf_drwVxVyN_of_ne_flag n s hx hy, firstFailure_read_eq_none]
  exact hend.imp_left fun hn => by simp [hn]

/-- DRW flips the pixels its sprite hits. -/
theorem pixel_draw_of_hit {p : Nat} (hp : p < 2048) (h : s.spriteHits x y n p) :
    Display.pixel (s.draw (s.drawnPixels x y n)).disp p = !Display.pixel s.disp p :=
  Bool.eq_not.2 ((pixel_draw_ne_iff hp).2 h)

/-- DRW leaves every other pixel. -/
theorem pixel_draw_of_not_hit {p : Nat} (hp : p < 2048) (h : ¬ s.spriteHits x y n p) :
    Display.pixel (s.draw (s.drawnPixels x y n)).disp p = Display.pixel s.disp p :=
  not_ne_iff.1 (mt (pixel_draw_ne_iff hp).1 h)

/-- A pixel of the buffer that the sprite hits is on. -/
def State.collides (s : State) (x y : Reg) (n : BitVec 4) : Prop :=
  ∃ p, p < 2048 ∧ s.spriteHits x y n p ∧ Display.pixel s.disp p = true

theorem collision_iff_collides :
    (drawTargets s.disp (s.drawnPixels x y n)).2 = true ↔ s.collides x y n := by
  rw [collision_drawTargets (drawnPixels_nodup s x y n)]
  simp only [mem_drawnPixels, State.collides]
  refine exists_congr fun p => ⟨fun ⟨hhit, hon⟩ => ⟨?_, hhit, hon⟩, fun ⟨_, h⟩ => h⟩
  by_contra hp
  simp [Display.pixel_of_ge s.disp (Nat.le_of_not_lt hp)] at hon

theorem flag_draw_of_collides (h : s.collides x y n) : (s.draw (s.drawnPixels x y n)).v[15] = 1 := by
  simp [collision_iff_collides.2 h, collisionFlag, flagByte]

theorem flag_draw_of_not_collides (h : ¬ s.collides x y n) : (s.draw (s.drawnPixels x y n)).v[15] = 0 := by
  simp [Bool.eq_false_iff.2 (mt collision_iff_collides.1 h), collisionFlag, flagByte]

/-- DRW writes VF, the display and pc. -/
theorem draw_advanced_frame (targets : List Nat) :
    (s.draw targets).advanced =
      { s with v := s.v.set 15 (s.draw targets).v[15], disp := (s.draw targets).disp, pc := s.pc + 2 } := by
  simp [State.advanced, State.draw, State.setV]

/-! ### Drawing twice -/

theorem getElem_draw_v (s : State) {z : Reg} (hz : z ≠ 15) (targets : List Nat) : (s.draw targets).v[z.val] = s.v[z.val] := by
  have hne : 15 ≠ z.val := fun e => hz (Fin.ext e.symm)
  rw [State.draw_v]
  exact Vector.getElem_set_ne _ _ hne

/-- With no operand VF, a second draw hits the pixels of the first: memory, I, Vx and Vy are the same (R194). -/
theorem spriteHits_draw (hx : x ≠ 15) (hy : y ≠ 15) (targets : List Nat) (p : Nat) :
    (s.draw targets).advanced.spriteHits x y n p ↔ s.spriteHits x y n p := by
  rw [State.spriteHits, State.spriteHits, ← getElem_draw_v s hx targets, ← getElem_draw_v s hy targets]
  rfl

/-- The pixels that are on when the second draw hits them are those the first draw turned on. -/
theorem collides_draw_iff (hx : x ≠ 15) (hy : y ≠ 15) :
    (s.draw (s.drawnPixels x y n)).advanced.collides x y n ↔
      ∃ p, p < 2048 ∧ s.spriteHits x y n p ∧ Display.pixel s.disp p = false := by
  refine exists_congr fun p => and_congr_right fun hp => ?_
  rw [spriteHits_draw hx hy]
  refine and_congr_right fun hhit => ?_
  rw [← Bool.not_eq_true', ← pixel_draw_of_hit hp hhit]
  rfl

/-- Two draws flip a hit pixel twice, and leave any other. -/
theorem disp_draw_draw (hx : x ≠ 15) (hy : y ≠ 15) {t : State} (ht : t = (s.draw (s.drawnPixels x y n)).advanced) :
    (t.draw (t.drawnPixels x y n)).disp = s.disp := by
  have htdisp : t.disp = (s.draw (s.drawnPixels x y n)).disp := by rw [ht]; rfl
  have hthits (p : Nat) : t.spriteHits x y n p ↔ s.spriteHits x y n p := ht ▸ spriteHits_draw hx hy _ p
  refine Display.ext_pixel fun p hp => ?_
  by_cases hhit : s.spriteHits x y n p
  · rw [pixel_draw_of_hit hp ((hthits p).2 hhit), htdisp, pixel_draw_of_hit hp hhit, Bool.not_not]
  · rw [pixel_draw_of_not_hit hp (mt (hthits p).1 hhit), htdisp, pixel_draw_of_not_hit hp hhit]

end Draw

/-- Settles O25: XORing distinct targets flips each of them once. -/
theorem drawFlipsTheTargetedPixels : Obligations.DrawFlipsTheTargetedPixels := by
  refine fun x y n s => ⟨decode_encode (.drwVxVyN x y n), fun hx hy hend =>
    ⟨_, exec_drwVxVyN hx hy hend, draw_advanced_frame _, fun p hp => ⟨?hit, ?miss⟩, ?collision, ?noCollision⟩⟩
  case hit => exact pixel_draw_of_hit hp
  case miss => exact pixel_draw_of_not_hit hp
  case collision => exact flag_draw_of_collides
  case noCollision => exact flag_draw_of_not_collides

/-- Settles O27: the second draw hits the same pixels, which restores them, and it collides where the first turned one
on. -/
theorem drawTwiceRestoresTheDisplay : Obligations.DrawTwiceRestoresTheDisplay := by
  intro x y n s hx hy hend
  refine ⟨_, _, exec_drwVxVyN hx hy hend, exec_drwVxVyN hx hy hend, ?restored, fun h => ?collision, fun h => ?noCollision⟩
  case restored => exact disp_draw_draw hx hy rfl
  case collision => exact flag_draw_of_collides ((collides_draw_iff hx hy).2 h)
  case noCollision => exact flag_draw_of_not_collides (mt (collides_draw_iff hx hy).1 h)

/-! ### Dropped pixels -/

/-- The last row is at 255 + 14 and the last column at 255 + 7 (R121). -/
theorem spriteHits_le {x y : Reg} {n : BitVec 4} {s : State} {p : Nat} (h : s.spriteHits x y n p) : p ≤ 17478 := by
  obtain ⟨r, c, hr, hc, -, rfl⟩ := h
  have := n.isLt
  have := (s.v[x.val]).isLt
  have := (s.v[y.val]).isLt
  omega

theorem mem_eventsOf_drwVxVyN {x y : Reg} {n : BitVec 4} {s : State} {p : Nat} :
    Event.pixelDropped p ∈ eventsOf (.drwVxVyN x y n) s ↔ s.spriteHits x y n p ∧ 2048 ≤ p := by
  simp [eventsOf, mem_drawnPixels]

/-- Settles O28: the events are the targets that the buffer does not hold. -/
theorem droppedPixelsAreReported : Obligations.DroppedPixelsAreReported := fun _ _ _ _ _ =>
  ⟨mem_eventsOf_drwVxVyN, fun h => spriteHits_le (mem_eventsOf_drwVxVyN.1 h).1⟩

end Sys2Proof.Machine

end

section
/-! # The host interface (60_exceptions.md R250 to R259, 70_reset_and_hazards.md R270) -/

namespace Sys2Proof.Machine

/-- Settles O55: the ticks of a running block are accepted. -/
theorem ticksDecrementNonzeroTimers : Obligations.TicksDecrementNonzeroTimers := by
  refine fun s hs => ⟨⟨_, unlessHalted_of_running hs _, ?delay, rfl⟩, ⟨_, unlessHalted_of_running hs _, ?sound, rfl⟩,
    _, unlessHalted_of_running hs _, ?delay, ?sound, rfl⟩
  case delay => exact timerTick_toNat s.DT
  case sound => exact timerTick_toNat s.ST

/-- Settles O56: the image is stored from 0x200 when it fits, and refused when it does not. -/
theorem loadProgramWritesTheImage : Obligations.LoadProgramWritesTheImage := by
  refine fun bytes s hs hm => ⟨fun hlen => ⟨s.store 0x200 bytes, ?done, rfl, fun j hj => ?image, fun a ha => ?frame⟩,
    fun hlen => ?refused⟩
  case done => rw [transact, State.loadProgram, if_pos hlen, unlessHalted_of_running hs]
  case image => exact Memory.read_writeBytes_inside hm bytes hj (by omega)
  case frame => exact Memory.read_writeBytes_outside s.mem bytes ha
  case refused => rw [transact, State.loadProgram, if_neg (Nat.not_le_of_lt hlen)]

/-- Settles O57: by whether the index names a key. -/
theorem setKeySetsOneFlag : Obligations.SetKeySetsOneFlag := by
  refine fun k down s hs => ⟨fun hk => ?sets, fun hk => ?refused⟩
  case sets => rw [transact, State.setKey, dif_pos hk, unlessHalted_of_running hs]
  case refused => rw [transact, State.setKey, dif_neg (Nat.not_lt_of_le hk)]

theorem dumpBound_natCast {b : Nat} (h : b ≤ 4096) : dumpBound b = true := by
  simp [dumpBound]
  omega

theorem dumpBounds_eq_false {start stop : Int} (h : start < 0 ∨ 4096 < start ∨ stop < 0 ∨ 4096 < stop) :
    (dumpBound start && dumpBound stop) = false := by
  simp only [dumpBound, ← Bool.decide_and, decide_eq_false_iff_not]
  omega

/-- Settles O58: by whether both bounds are in range, and then by the latch. -/
theorem dumpMemoryReadsOrFaults : Obligations.DumpMemoryReadsOrFaults := by
  refine ⟨fun start stop s hstart hstop => ?reads,
    fun start stop s hbounds => ⟨fun hs => ?faults, fun f hs => ?latched⟩⟩
  case reads =>
    simp [transact, State.dumpMemory, dumpBound_natCast hstart, dumpBound_natCast hstop, Memory.readBytes]
  case faults => simp [transact, State.dumpMemory, dumpBounds_eq_false hbounds, hs, State.latch]
  case latched => simp [transact, State.dumpMemory, dumpBounds_eq_false hbounds, hs]

/-- Settles O59: the answers are the pixels in index order, the level of ST, and the latch itself. -/
theorem hostReadsChangeNothing : Obligations.HostReadsChangeNothing := by
  refine fun s => ⟨⟨s.pixels, rfl, ?count, fun p hp => ?pixel⟩, ⟨s.soundActive, rfl, ?level⟩, rfl⟩
  case count => simp [State.pixels]
  case pixel => simp [State.pixels, hp]
  case level => exact (State.soundActive_iff s).trans (not_congr BitVec.toNat_inj.symm)

theorem Memory.background_of_glyph (a : Fin 80) : Memory.background a.val = Config.glyphData a := dif_pos a.isLt

theorem Memory.background_of_ge {a : Nat} (h : 80 ≤ a) : Memory.background a = 0 := dif_neg (Nat.not_lt_of_le h)

/-- Settles O60: after reset memory lists nothing, so every address reads as its background. -/
theorem resetPutsEveryValue : Obligations.ResetPutsEveryValue := by
  refine fun s => ⟨s.afterReset, rfl, rfl, rfl, rfl, rfl, rfl, rfl, rfl, fun k => ?vectors, fun p _ => ?pixels,
    Memory.background_of_glyph, fun a ha _ => Memory.background_of_ge ha⟩
  case vectors => simp [State.afterReset, State.reset]
  case pixels => exact Display.pixel_clear p

end Sys2Proof.Machine

end
